-- ==== Sys2Proof/Word.lean ====
section
/-! DEFINITION. The bus words of the modexp_engine: word, byte and offset types, and one transfer of the
register-bus slave port (spec/20_memory.md R37, R42). -/

namespace Sys2Proof

/-- Data on the bus is a 32-bit word (R42). -/
abbrev Word := BitVec 32

/-- One byte of a bus word (R42). -/
abbrev Byte := BitVec 8

/-- A 12-bit byte offset from `BASE` into the 4096-byte register window (R37, R38). -/
abbrev Offset := BitVec 12

/-- The access sizes a transfer can carry: 1, 2 or 4 bytes (R37). -/
inductive AccessSize where
  | byte
  | half
  | word
  deriving DecidableEq, Repr

/-- The direction of a transfer, a write with its 32-bit write data (R37). -/
inductive Direction where
  | read
  | write (data : Word)
  deriving DecidableEq, Repr

/-- What the host puts on the slave port for one transfer (R37).  It does not say which host agent issued it: every
accepted access has the same effect whoever issues it (spec/60_exceptions.md R103). -/
structure Transfer where
  off : Offset
  size : AccessSize
  dir : Direction
  deriving DecidableEq, Repr

/-- `MemRead(off, 4)` as a transfer (spec/00_scope.md R13). -/
def Transfer.readWord (off : Offset) : Transfer :=
  { off := off, size := .word, dir := .read }

/-- `MemWrite(off, 4, v)` as a transfer (spec/00_scope.md R13). -/
def Transfer.writeWord (off : Offset) (v : Word) : Transfer :=
  { off := off, size := .word, dir := .write v }

end Sys2Proof
end

