-- ==== Sys2Proof/Config.lean ====
section
/-! DEFINITION. What an implementation or the platform fixes: the operand width OPW (spec/00_scope.md R7, R8) and the
base address of the register window (R9).  No result of the block is open (spec/40_command.md R68), so there is no free
value here. -/

namespace Sys2Proof

/-- The parameter OPW.  Its legal values are the multiples of 32 from 32 to 2048 (R7), so a width is given by
`NW - 1`, a number below 64, and every value of this type is legal. -/
structure Width where
  lastWord : Fin 64
  deriving DecidableEq, Repr

/-- `NW = OPW / 32`, the number of 32-bit words in one operand register (R8). -/
def Width.nw (w : Width) : Nat := w.lastWord.val + 1

/-- `OPW`, the operand width in bits (R7). -/
def Width.opw (w : Width) : Nat := 32 * w.nw

/-- The reference configuration: `OPW = 64`, `NW = 2` (R7, R8). -/
def Width.reference : Width := ⟨1⟩

/-- The 4 KiB page of the platform-chosen `BASE` (R9).  An open parameter: it has no body, so nothing can be proved
of its value (log entry 12). -/
opaque Config.basePage : Nat

/-- `BASE`: the bus address of the window, aligned to 4 KiB (R9). -/
def Config.base : Nat := 4096 * Config.basePage

end Sys2Proof
end

