-- ==== Sys2Proof/Machine/State.lean ====
section
/-! DEFINITION. The state of one modexp_engine (spec/10_state.md R16), the reasons a step stops, and the state after
reset (R36).  Plain data. -/

namespace Sys2Proof.Machine

/-- One step of the model (spec/00_scope.md R14): whose turn it is, and with what. -/
inductive Turn where
  /-- The host performs one bus access (R14 (a)). -/
  | host (t : Transfer)
  /-- The engine's completion step (R14 (b)). -/
  | engine
  /-- `rst_n` is driven low: a hardware reset (R14 (c)). -/
  | reset
  deriving DecidableEq, Repr

/-- What the slave port answers to an access (spec/20_memory.md R37): read data for a read, nothing for a write
(R53), and the error response bit. -/
structure Response where
  rdata : Option Word
  error : Bool
  deriving DecidableEq, Repr

/-- The answer to an accepted write. -/
def Response.written : Response := ⟨none, false⟩

/-- The answer to an accepted read. -/
def Response.data (v : Word) : Response := ⟨some v, false⟩

/-- Why the machine stops.  None of these is an event of the hardware: a command that fails, or a refused bus access, goes
on to a next state. -/
inductive Fault where
  /-- Raised by `takeTurn`: no job is in flight and nothing is due, so no transition of R14 exists.  Safe (log entry 3). -/
  | noTransition
  /-- Raised by `engineStep`: the engine is given a turn while BUSY = 0, where its step is not enabled
  (spec/40_command.md R63).  Safe (log entry 4). -/
  | engineNotEnabled
  /-- Raised by `engineStep`: BUSY = 1 with a JOB_OP that no rule lets be there; no run reaches it.  Safe (log entry 7). -/
  | jobOpUndefined (op : BitVec 4)
  deriving DecidableEq, Repr

/-- Why an instruction has no meaning.  No meaning of this model answers with a refusal. -/
inductive Refusal where
  /-- Raised by `exec` for an instruction without a meaning.  Safe. -/
  | notModelled (mnemonic : String)
  deriving DecidableEq, Repr

/-- The whole state.  `width` is the parameter OPW, `turns` and `response` are the model's own interface to the outside
(log entries 1, 2, 6); every other field is one of R16. -/
structure State where
  width : Width
  a : BitVec width.opw
  b : BitVec width.opw
  n : BitVec width.opw
  r : BitVec width.opw
  ieDone : Bool
  ieErr : Bool
  busy : Bool
  done : Bool
  err : Bool
  overrun : Bool
  errcode : BitVec 4
  jobOp : BitVec 4
  turns : List Turn
  response : Option Response
  deriving DecidableEq, Repr

/-- The reset state of a block of width `w` (R36), with nothing due and no access answered. -/
def State.resetOf (w : Width) : State :=
  { width := w, a := 0, b := 0, n := 0, r := 0, ieDone := false, ieErr := false, busy := false, done := false, err := false,
    overrun := false, errcode := 0, jobOp := 0, turns := [], response := none }

/-- The machine right after reset, in the reference configuration OPW = 64 (R36, spec/00_scope.md R7). -/
def State.reset : State := State.resetOf Width.reference

end Sys2Proof.Machine
end

