-- ==== Sys2Proof/Machine/Flags.lean ====
section
/-! DEFINITION. The flags of STATUS and CTRL: their words, what sets and clears each, and the interrupt output
(spec/10_state.md R26 to R32, R35, spec/60_exceptions.md R95). -/

namespace Sys2Proof.Machine

/-- The error codes of revision 1 (R95). -/
inductive ErrorCode where
  | illegalOp
  | modulusInvalid
  | range
  | notCoprime
  deriving DecidableEq, Repr

/-- The 4-bit code of an error (R95). -/
def ErrorCode.code (e : ErrorCode) : BitVec 4 :=
  match e with
  | .illegalOp => 1
  | .modulusInvalid => 2
  | .range => 3
  | .notCoprime => 4

/-- The word a read of STATUS returns: `{24'b0, ERRCODE, OVERRUN, ERR, DONE, BUSY}` (spec/20_memory.md R45). -/
def statusWord (s : State) : Word :=
  (0#24 ++ s.errcode ++ BitVec.ofBool s.overrun ++ BitVec.ofBool s.err ++ BitVec.ofBool s.done ++ BitVec.ofBool s.busy :
    BitVec (24 + 4 + 1 + 1 + 1 + 1))

/-- The word a read of CTRL returns: `{30'b0, IE_ERR, IE_DONE}` (R32, spec/20_memory.md R45). -/
def ctrlWord (s : State) : Word :=
  (0#30 ++ BitVec.ofBool s.ieErr ++ BitVec.ofBool s.ieDone : BitVec (30 + 1 + 1))

/-- The interrupt output (R35). -/
def State.irq (s : State) : Bool := (s.done && s.ieDone) || (s.err && s.ieErr)

/-- OVERRUN is set by a host write that is ignored because BUSY = 1 (R31). -/
def State.setOverrun (s : State) : State := { s with overrun := true }

/-- Any command word accepted clears the previous outcome: DONE, ERR and ERRCODE (spec/40_command.md R64). -/
def State.clearOutcome (s : State) : State := { s with done := false, err := false, errcode := 0 }

/-- The interrupt enables take new values (spec/43_control.md R90). -/
def State.setEnables (s : State) (ieErr ieDone : Bool) : State := { s with ieErr := ieErr, ieDone := ieDone }

/-- Write-1-to-clear: each strobe clears its flag, ERR's clears ERRCODE too (spec/43_control.md R93). -/
def State.clearStrobed (s : State) (overrun err done : Bool) : State :=
  { s with
    done := s.done && !done
    err := s.err && !err
    errcode := if err then 0 else s.errcode
    overrun := s.overrun && !overrun }

end Sys2Proof.Machine
end

