-- ==== Sys2Proof/Machine/Operands.lean ====
section
/-! DEFINITION. The operand registers: their windows, their words, and the unsigned integers the commands read and write
(spec/10_state.md R17, R21, spec/20_memory.md R39, R40). -/

namespace Sys2Proof.Machine

/-- The four operand registers (R17). -/
inductive OperandReg where
  | A
  | B
  | N
  | R
  deriving DecidableEq, Repr

/-- `base_r`: the offset of the register's window (R40). -/
def OperandReg.base (r : OperandReg) : Nat :=
  match r with
  | .A => 0x100
  | .B => 0x200
  | .N => 0x300
  | .R => 0x400

/-- Offset of word `i` of register `r`: `base_r + 4*i` (R40). -/
def wordOffset (r : OperandReg) (i : Nat) : Offset := BitVec.ofNat 12 (r.base + 4 * i)

/-- What stands at an offset of the register window. -/
inductive WindowTarget where
  | id
  | config
  | cmd
  | status
  | ctrl
  | operandWord (r : OperandReg) (i : Nat)
  | reserved
  deriving DecidableEq, Repr

/-- The register window map (R39). -/
def windowTarget (off : Offset) : WindowTarget :=
  if off.toNat = 0x000 then .id
  else if off.toNat = 0x004 then .config
  else if off.toNat = 0x008 then .cmd
  else if off.toNat = 0x00C then .status
  else if off.toNat = 0x010 then .ctrl
  else if off.toNat < 0x100 then .reserved
  else if off.toNat < 0x200 then .operandWord .A ((off.toNat - 0x100) / 4)
  else if off.toNat < 0x300 then .operandWord .B ((off.toNat - 0x200) / 4)
  else if off.toNat < 0x400 then .operandWord .N ((off.toNat - 0x300) / 4)
  else if off.toNat < 0x500 then .operandWord .R ((off.toNat - 0x400) / 4)
  else .reserved

/-- Word `i` of a register: its bits `[32*i+31 : 32*i]` (R21). -/
def wordOf {w : Nat} (x : BitVec w) (i : Nat) : Word := x.extractLsb' (32 * i) 32

/-- The bits `[32*i+31 : 32*i]` of a register of width `w`. -/
def wordMask (w i : Nat) : BitVec w := (BitVec.allOnes 32).setWidth w <<< (32 * i)

/-- A register with word `i` set to `v`: only bits `[32*i+31 : 32*i]` change (R21). -/
def setWordOf {w : Nat} (x : BitVec w) (i : Nat) (v : Word) : BitVec w :=
  (x &&& ~~~(wordMask w i)) ||| (v.setWidth w <<< (32 * i))

/-- `x[r]`: operand register `r` as an unsigned integer (spec/00_scope.md R13). -/
def State.x (s : State) (r : OperandReg) : Nat :=
  match r with
  | .A => s.a.toNat
  | .B => s.b.toNat
  | .N => s.n.toNat
  | .R => s.r.toNat

/-- `x[r] <- v` (spec/00_scope.md R13).  Every value written lies in `[0, 2^OPW)` (R20). -/
def State.setX (s : State) (r : OperandReg) (v : Nat) : State :=
  match r with
  | .A => { s with a := BitVec.ofNat _ v }
  | .B => { s with b := BitVec.ofNat _ v }
  | .N => { s with n := BitVec.ofNat _ v }
  | .R => { s with r := BitVec.ofNat _ v }

/-- The host sets word `i` of A, B or N; R is read-only from the host (R18, R19). -/
def State.setWord (s : State) (r : OperandReg) (i : Nat) (v : Word) : State :=
  match r with
  | .A => { s with a := setWordOf s.a i v }
  | .B => { s with b := setWordOf s.b i v }
  | .N => { s with n := setWordOf s.n i v }
  | .R => s

/-- Word `i` of register `r` as the host may read it: A, B and N are write-only (R18), words past `NW` read 0 (R40). -/
def State.readableWord (s : State) (r : OperandReg) (i : Nat) : Word :=
  match r with
  | .A => 0
  | .B => 0
  | .N => 0
  | .R => if i < s.width.nw then wordOf s.r i else 0

end Sys2Proof.Machine
end

