-- ==== Sys2Proof/Machine/Ops.lean ====
section
/-! DEFINITION. The operations the meanings share: issuing a command, ending it in success or in error, clearing the
operands, the reset, and the constant words (spec/40_command.md R64 to R69, spec/60_exceptions.md R98). -/

namespace Sys2Proof.Machine

/-- ID: the constant 0x4D455850 (spec/10_state.md R23). -/
def idWord : Word := 0x4D455850

/-- CONFIG: `{8'h00, 8'h01, 4'h0, OPW[11:0]}` (spec/10_state.md R24). -/
def configWord (w : Width) : Word :=
  (0x00#8 ++ 0x01#8 ++ 0x0#4 ++ BitVec.ofNat 12 w.opw : BitVec (8 + 8 + 4 + 12))

/-- How a job ends (R68). -/
inductive JobResult where
  | ok (v : Nat)
  | err (e : ErrorCode)
  deriving DecidableEq, Repr

/-- `raise <Error>(code)`: a command ends in error (spec/60_exceptions.md R98).  This is the block's only exception entry:
ERR and ERRCODE are set, BUSY is cleared, nothing else changes, and control goes nowhere. -/
def State.raise (s : State) (e : ErrorCode) : State := { s with err := true, errcode := e.code, busy := false }

/-- `complete(v)`: a command ends successfully (R69). -/
def State.complete (s : State) (v : Nat) : State := { s.setX .R v with done := true, busy := false }

/-- The two ways the completion step ends (R69). -/
def State.finish (s : State) (res : JobResult) : State :=
  match res with
  | .ok v => s.complete v
  | .err e => s.raise e

/-- `issue_command` (R64), on the opcode the word decodes to, or none for an illegal word (R65). -/
def State.issueCommand (s : State) (op : Option (BitVec 4)) : State :=
  if s.busy then s.setOverrun
  else
    match op with
    | none => s.clearOutcome.raise .illegalOp
    | some o => { s.clearOutcome with jobOp := o, busy := true }

/-- `zeroize()`: A, B, N and R become 0 (spec/43_control.md R91). -/
def State.zeroizeOperands (s : State) : State := { s with a := 0, b := 0, n := 0, r := 0 }

/-- Every field of R16 takes its reset value (spec/10_state.md R36): hardware reset and SOFT_RESET alike
(spec/43_control.md R92, spec/70_reset_and_hazards.md R109).  BUSY = 0 abandons any job in flight.  The width, what is still
due and the last answer on the bus are no state of the block and stay (log entries 1, 2, 6). -/
def State.toReset (s : State) : State :=
  { s with
    a := 0, b := 0, n := 0, r := 0, ieDone := false, ieErr := false, busy := false, done := false, err := false,
    overrun := false, errcode := 0, jobOp := 0 }

/-- The port answers the access. -/
def State.respond (s : State) (resp : Response) : State := { s with response := some resp }

/-- What is due after the turn that is being taken. -/
def State.withTurns (s : State) (rest : List Turn) : State := { s with turns := rest }

/-- A host write to word `i` of an operand window: it sets the word, or while BUSY = 1 is ignored and sets OVERRUN; a write to R
or past `NW` is ignored (spec/20_memory.md R40, R46). -/
def State.operandWrite (s : State) (r : OperandReg) (i : Nat) (v : Word) : State :=
  match r with
  | .R => s
  | .A => if i < s.width.nw then (if s.busy then s.setOverrun else s.setWord .A i v) else s
  | .B => if i < s.width.nw then (if s.busy then s.setOverrun else s.setWord .B i v) else s
  | .N => if i < s.width.nw then (if s.busy then s.setOverrun else s.setWord .N i v) else s

end Sys2Proof.Machine
end

