-- ==== Sys2Proof/Machine/Control.lean ====
section
/-! DEFINITION. The control actions: SETIE, ZEROIZE, SOFT_RESET and CLRST (spec/43_control.md R90 to R93).  Each completes in
the step of its bus write. -/

namespace Sys2Proof.Machine

/-- SETIE: a CTRL write with bits 31:30 = 00 sets the enables, while BUSY = 1 too; bits 29:2 are ignored (R90). -/
def execSetie (_rsvd : BitVec 28) (ieErr ieDone : Bool) (s : State) : Host.Outcome State Fault Refusal :=
  .next (s.setEnables ieErr ieDone)

/-- ZEROIZE: a CTRL write with bits 31:30 = 01 sets the enables, then clears the operands, or while BUSY = 1 sets
OVERRUN instead (R90, R91, spec/40_command.md R66). -/
def execZeroize (_rsvd : BitVec 28) (ieErr ieDone : Bool) (s : State) : Host.Outcome State Fault Refusal :=
  if s.busy then .next (s.setEnables ieErr ieDone).setOverrun
  else .next (s.setEnables ieErr ieDone).zeroizeOperands

/-- SOFT_RESET: a CTRL write with bit 31 = 1 returns the block to its reset state, while BUSY = 1 too; every other bit is
ignored (R90, R92). -/
def execSoftReset (_ignored : BitVec 31) (s : State) : Host.Outcome State Fault Refusal := .next s.toReset

/-- CLRST: a STATUS write clears the flags whose bits are 1; BUSY and ERRCODE cannot be written directly (R93). -/
def execClrst (_ignored : BitVec 28) (overrun err done _busy : Bool) (s : State) : Host.Outcome State Fault Refusal :=
  .next (s.clearStrobed overrun err done)

end Sys2Proof.Machine
end

