-- ==== Sys2Proof/Syntax.lean ====
section
/-! DEFINITION. The instructions: one constructor per row of spec/opcode_table.json (spec/30_encoding.md R54 to R58).
Every bit of the 32-bit word that the row does not fix is a field of its constructor, the ignored ones too
(log entry 8). -/

namespace Sys2Proof

/-- The command words written to CMD and the action words written to CTRL and STATUS. -/
inductive Instr where
  /-- CMD word 0x00000001: `R <- A^B mod N` (R58, spec/42_modular.md R83). -/
  | modexp
  /-- CMD word 0x00000002: `R <- (A*B) mod N` (R58, spec/42_modular.md R88). -/
  | modmul
  /-- CMD word 0x00000003: `R <- gcd(A, B)` (R58, spec/41_keyderiv.md R74). -/
  | gcd
  /-- CMD word 0x00000004: `R <- A^(-1) mod N` (R58, spec/41_keyderiv.md R77). -/
  | modinv
  /-- CTRL word with bit 31 = 1; bits 30:0 are ignored (R55, spec/43_control.md R92). -/
  | softReset (ignored : BitVec 31)
  /-- CTRL word with bits 31:30 = 01; bits 29:2 are ignored (R55, spec/43_control.md R91). -/
  | zeroize (rsvd : BitVec 28) (ieErr ieDone : Bool)
  /-- CTRL word with bits 31:30 = 00; bits 29:2 are ignored (R55, spec/43_control.md R90). -/
  | setie (rsvd : BitVec 28) (ieErr ieDone : Bool)
  /-- STATUS word: the write-1-to-clear strobes of OVERRUN, ERR and DONE; bits 31:4 and bit 0 are ignored
  (R56, spec/43_control.md R93). -/
  | clrst (ignored : BitVec 28) (overrun err done : Bool) (busy : Bool)
  deriving DecidableEq, Repr

end Sys2Proof
end

