-- ==== Sys2Proof/WellFormed.lean ====
section
/-! DEFINITION. What is well formed.  An instruction is one aligned 32-bit write; the checks are those the bus makes of a
transfer (spec/20_memory.md R43). -/

namespace Sys2Proof

/-- Check 1: the access is a 32-bit access (R43). -/
def Transfer.sizeOk (t : Transfer) : Bool := t.size == .word

/-- Check 2: the offset is a multiple of 4 (R43). -/
def Transfer.aligned (t : Transfer) : Bool := t.off.toNat % 4 == 0

/-- The block accepts a transfer exactly when both checks hold (R43). -/
def Transfer.wellFormed (t : Transfer) : Bool := t.sizeOk && t.aligned

/-- An instruction's fields are exactly the bits its encoding leaves open, so the types already say all there is to
check: the formats have no reserved value that makes a term illegal (spec/30_encoding.md R55, R56: reserved bits are
ignored, not an error; R54: a command has no field). -/
def Instr.wellFormed (i : Instr) : Bool :=
  match i with
  | .modexp => true
  | .modmul => true
  | .gcd => true
  | .modinv => true
  | .softReset _ => true
  | .zeroize _ _ _ => true
  | .setie _ _ _ => true
  | .clrst _ _ _ _ _ => true

end Sys2Proof
end

