-- ==== Sys2Proof/Decode.lean ====
section
/-! DEFINITION. Decoder, total on every offset and every 32-bit word, then the encoder, then the opcode table as data
(spec/30_encoding.md R54 to R61, spec/opcode_table.json). -/

namespace Sys2Proof

/-- Offset of CMD (spec/20_memory.md R39). -/
def cmdOffset : Offset := 0x008

/-- Offset of STATUS (spec/20_memory.md R39). -/
def statusOffset : Offset := 0x00C

/-- Offset of CTRL (spec/20_memory.md R39). -/
def ctrlOffset : Offset := 0x010

/-- `OP` of MODEXP (R58). -/
def opModexp : BitVec 4 := 0x1

/-- `OP` of MODMUL (R58). -/
def opModmul : BitVec 4 := 0x2

/-- `OP` of GCD (R58). -/
def opGcd : BitVec 4 := 0x3

/-- `OP` of MODINV (R58). -/
def opModinv : BitVec 4 := 0x4

/-- Why a written word is no instruction. -/
inductive DecodeError where
  /-- A CMD word with a non-zero bit in 31:4 (R60). -/
  | reservedBits (rsvd : BitVec 28)
  /-- A CMD word whose `OP` is 0x0 or 0x5 to 0xF (R60). -/
  | reservedOpcode (op : BitVec 4)
  /-- The offset is none of CMD, CTRL and STATUS: the write is no instruction. -/
  | notACommandRegister (off : Offset)
  deriving DecidableEq, Repr

/-- `decode(v)` of R59: the command in a word written to CMD. -/
def decodeCmd (v : Word) : Except DecodeError Instr :=
  if v.extractLsb' 4 28 ≠ 0#28 then .error (.reservedBits (v.extractLsb' 4 28))
  else if v.extractLsb' 0 4 = opModexp then .ok .modexp
  else if v.extractLsb' 0 4 = opModmul then .ok .modmul
  else if v.extractLsb' 0 4 = opGcd then .ok .gcd
  else if v.extractLsb' 0 4 = opModinv then .ok .modinv
  else .error (.reservedOpcode (v.extractLsb' 0 4))

/-- The action in a word written to CTRL (R55): SOFT_RESET wins over ZEROIZE (spec/43_control.md R90). -/
def decodeCtrl (v : Word) : Instr :=
  if v.getLsbD 31 then .softReset (v.extractLsb' 0 31)
  else if v.getLsbD 30 then .zeroize (v.extractLsb' 2 28) (v.getLsbD 1) (v.getLsbD 0)
  else .setie (v.extractLsb' 2 28) (v.getLsbD 1) (v.getLsbD 0)

/-- The strobes in a word written to STATUS (R56). -/
def decodeStatus (v : Word) : Instr :=
  .clrst (v.extractLsb' 4 28) (v.getLsbD 3) (v.getLsbD 2) (v.getLsbD 1) (v.getLsbD 0)

/-- The instruction that writing `v` to offset `off` is, or why it is none. -/
def decode (off : Offset) (v : Word) : Except DecodeError Instr :=
  if off = cmdOffset then decodeCmd v
  else if off = ctrlOffset then .ok (decodeCtrl v)
  else if off = statusOffset then .ok (decodeStatus v)
  else .error (.notACommandRegister off)

/-- A command word: `OP` in bits 3:0, bits 31:4 zero (R54). -/
def commandWord (op : BitVec 4) : Word := (0#28 ++ op : BitVec (28 + 4))

/-- The register an instruction's word is written to (opcode_table.json, "format"). -/
def Instr.offset (i : Instr) : Offset :=
  match i with
  | .modexp => cmdOffset
  | .modmul => cmdOffset
  | .gcd => cmdOffset
  | .modinv => cmdOffset
  | .softReset _ => ctrlOffset
  | .zeroize _ _ _ => ctrlOffset
  | .setie _ _ _ => ctrlOffset
  | .clrst _ _ _ _ _ => statusOffset

/-- The word of an instruction (R54, R55, R56). -/
def encode (i : Instr) : Word :=
  match i with
  | .modexp => commandWord opModexp
  | .modmul => commandWord opModmul
  | .gcd => commandWord opGcd
  | .modinv => commandWord opModinv
  | .softReset ignored => (1#1 ++ ignored : BitVec (1 + 31))
  | .zeroize rsvd ieErr ieDone => (0#1 ++ 1#1 ++ rsvd ++ BitVec.ofBool ieErr ++ BitVec.ofBool ieDone : BitVec (1 + 1 + 28 + 1 + 1))
  | .setie rsvd ieErr ieDone => (0#1 ++ 0#1 ++ rsvd ++ BitVec.ofBool ieErr ++ BitVec.ofBool ieDone : BitVec (1 + 1 + 28 + 1 + 1))
  | .clrst ignored overrun err done busy =>
    (ignored ++ BitVec.ofBool overrun ++ BitVec.ofBool err ++ BitVec.ofBool done ++ BitVec.ofBool busy : BitVec (28 + 1 + 1 + 1 + 1))

/-- The host write that an instruction is (R62: each mnemonic is one `wr`). -/
def Instr.transfer (i : Instr) : Transfer := .writeWord i.offset (encode i)

/-- One row of spec/opcode_table.json: a word `v` written to `off` is this row's when `v & mask = pattern`. -/
structure OpcodeRow where
  mnemonic : String
  off : Offset
  pattern : Word
  mask : Word
  deriving DecidableEq, Repr

/-- `(v & mask) == match` (R59). -/
def OpcodeRow.fits (row : OpcodeRow) (v : Word) : Bool := v &&& row.mask == row.pattern

/-- The rows of spec/opcode_table.json in its order. -/
def opcodeTable : List OpcodeRow :=
  [ ⟨"MODEXP", cmdOffset, 0x00000001, 0xFFFFFFFF⟩,
    ⟨"MODMUL", cmdOffset, 0x00000002, 0xFFFFFFFF⟩,
    ⟨"GCD", cmdOffset, 0x00000003, 0xFFFFFFFF⟩,
    ⟨"MODINV", cmdOffset, 0x00000004, 0xFFFFFFFF⟩,
    ⟨"SOFT_RESET", ctrlOffset, 0x80000000, 0x80000000⟩,
    ⟨"ZEROIZE", ctrlOffset, 0x40000000, 0xC0000000⟩,
    ⟨"SETIE", ctrlOffset, 0x00000000, 0xC0000000⟩,
    ⟨"CLRST", statusOffset, 0x00000000, 0x00000000⟩ ]

/-- The row an instruction stands for. -/
def Instr.mnemonic (i : Instr) : String :=
  match i with
  | .modexp => "MODEXP"
  | .modmul => "MODMUL"
  | .gcd => "GCD"
  | .modinv => "MODINV"
  | .softReset _ => "SOFT_RESET"
  | .zeroize _ _ _ => "ZEROIZE"
  | .setie _ _ _ => "SETIE"
  | .clrst _ _ _ _ _ => "CLRST"

/-- The 32-bit word of a bare number whose bits above `nbits` are 0. -/
def tableWord (nbits w : Nat) : Word := BitVec.ofNat 32 (w % 2 ^ nbits)

/-- The register a bare table word is written to: that of the first row of the table whose mask and pattern it fits.
A row to which the table gives no bits (`nbits = 0`) is CLRST's, the one row with mask 0 (log entry 8). -/
def tableOffset (nbits w : Nat) : Offset :=
  if nbits = 0 then statusOffset
  else
    match opcodeTable.find? (fun row => row.fits (tableWord nbits w)) with
    | some row => row.off
    | none => statusOffset

/-- A bare table word as the host write it stands for. -/
def tableTransfer (nbits w : Nat) : Transfer := .writeWord (tableOffset nbits w) (tableWord nbits w)

/-- What the decoder reads from an instruction whose bits are `w`, as spec/opcode_table.json numbers them. -/
def decodeTableWord (nbits w : Nat) : Option Instr :=
  match decode (tableOffset nbits w) (tableWord nbits w) with
  | .ok i => some i
  | .error _ => none

end Sys2Proof
end

