-- ==== Sys2Proof/Machine/KeyDeriv.lean ====
section
/-! DEFINITION. GCD and MODINV (spec/41_keyderiv.md R74 to R79): what a job computes, and what writing the command word
does. -/

namespace Sys2Proof.Machine

/-- The Euclidean loop of R74.  `fuel` bounds its rounds; the second argument falls in every round, so more than its
first value is enough (log entry 10). -/
def gcdLoop (fuel a b : Nat) : Nat :=
  match fuel with
  | 0 => a
  | fuel + 1 => if b = 0 then a else gcdLoop fuel b (a % b)

/-- `compute(GCD, a, b, n)` (R74).  It never fails. -/
def computeGcd (a b : Nat) : JobResult := .ok (gcdLoop (b + 1) a b)

/-- The working values of R77: remainders, and the two signed coefficient pairs. -/
structure EuclidState where
  r0 : Nat
  r1 : Nat
  s0 : Int
  s1 : Int
  t0 : Int
  t1 : Int
  deriving DecidableEq, Repr

/-- One round of the extended Euclidean loop of R77. -/
def EuclidState.round (e : EuclidState) : EuclidState :=
  { r0 := e.r1
    r1 := e.r0 % e.r1
    s0 := e.s1
    s1 := e.s0 - ((e.r0 / e.r1 : Nat) : Int) * e.s1
    t0 := e.t1
    t1 := e.t0 - ((e.r0 / e.r1 : Nat) : Int) * e.t1 }

/-- The extended Euclidean loop of R77, its rounds bounded by `fuel` as in `gcdLoop` (log entry 10). -/
def euclidLoop (fuel : Nat) (e : EuclidState) : EuclidState :=
  match fuel with
  | 0 => e
  | fuel + 1 => if e.r1 = 0 then e else euclidLoop fuel e.round

/-- The start of the loop of R77: `(r0, r1) = (a, n)`, `(s0, s1) = (1, 0)`, `(t0, t1) = (0, 1)`. -/
def EuclidState.start (a n : Nat) : EuclidState := { r0 := a, r1 := n, s0 := 1, s1 := 0, t0 := 0, t1 := 1 }

/-- `while s < 0: s <- s + n` (R77).  Each round adds at least 1 when `n >= 1`, so `|s|` rounds are enough. -/
def addUntilNonneg (fuel : Nat) (s : Int) (n : Nat) : Int :=
  match fuel with
  | 0 => s
  | fuel + 1 => if s < 0 then addUntilNonneg fuel (s + n) n else s

/-- `compute(MODINV, a, b, n)` (R77). -/
def computeModinv (a n : Nat) : JobResult :=
  if n < 2 then .err .modulusInvalid
  else if a ≥ n then .err .range
  else
    let e := euclidLoop (n + 1) (.start a n)
    if e.r0 ≠ 1 then .err .notCoprime
    else .ok (addUntilNonneg e.s0.natAbs e.s0 n).toNat

/-- GCD: the command word 0x00000003 is written to CMD (R74, spec/40_command.md R64). -/
def execGcd (s : State) : Host.Outcome State Fault Refusal := .next (s.issueCommand (some opGcd))

/-- MODINV: the command word 0x00000004 is written to CMD (R77, spec/40_command.md R64). -/
def execModinv (s : State) : Host.Outcome State Fault Refusal := .next (s.issueCommand (some opModinv))

end Sys2Proof.Machine
end

