-- ==== Sys2Proof/Machine/Modular.lean ====
section
/-! DEFINITION. MODEXP and MODMUL (spec/42_modular.md R81 to R88): what a job computes, and what writing the command word
does. -/

namespace Sys2Proof.Machine

/-- The loop of R83 over bits `k-1` down to 0 of the exponent `b`: square, then multiply by `a` where the bit is 1. -/
def modexpLoop (k a b n r : Nat) : Nat :=
  match k with
  | 0 => r
  | k + 1 =>
    if b.testBit k then modexpLoop k a b n (r * r % n * a % n)
    else modexpLoop k a b n (r * r % n)

/-- `compute(MODEXP, a, b, n)` (R83). -/
def computeModexp (opw a b n : Nat) : JobResult :=
  if n < 2 then .err .modulusInvalid
  else if a ≥ n then .err .range
  else .ok (modexpLoop opw a b n 1)

/-- `compute(MODMUL, a, b, n)` (R88): the exact product, then reduced. -/
def computeModmul (a b n : Nat) : JobResult :=
  if n < 2 then .err .modulusInvalid
  else if a ≥ n ∨ b ≥ n then .err .range
  else .ok (a * b % n)

/-- MODEXP: the command word 0x00000001 is written to CMD (R83, spec/40_command.md R64).  Its result comes with the
engine's completion step (R69). -/
def execModexp (s : State) : Host.Outcome State Fault Refusal := .next (s.issueCommand (some opModexp))

/-- MODMUL: the command word 0x00000002 is written to CMD (R88, spec/40_command.md R64). -/
def execModmul (s : State) : Host.Outcome State Fault Refusal := .next (s.issueCommand (some opModmul))

end Sys2Proof.Machine
end

