-- ==== Sys2Proof/Machine/Dispatch.lean ====
section
/-! DEFINITION. The dispatch of every instruction to its meaning. -/

namespace Sys2Proof.Machine

/-- The effect of writing instruction `i`'s word to its register (spec/20_memory.md R46). -/
def exec (i : Instr) (s : State) : Host.Outcome State Fault Refusal :=
  match i with
  | .modexp => Sys2Proof.Machine.execModexp s
  | .modmul => Sys2Proof.Machine.execModmul s
  | .gcd => Sys2Proof.Machine.execGcd s
  | .modinv => Sys2Proof.Machine.execModinv s
  | .softReset ignored => Sys2Proof.Machine.execSoftReset ignored s
  | .zeroize rsvd ieErr ieDone => Sys2Proof.Machine.execZeroize rsvd ieErr ieDone s
  | .setie rsvd ieErr ieDone => Sys2Proof.Machine.execSetie rsvd ieErr ieDone s
  | .clrst ignored overrun err done busy => Sys2Proof.Machine.execClrst ignored overrun err done busy s

end Sys2Proof.Machine
end

