-- ==== Sys2Proof/Machine/Bus.lean ====
section
/-! DEFINITION. The slave port: host reads, host writes and refused accesses (spec/20_memory.md R43, R45, R46), and the
window as a byte-addressed host sees it (R42). -/

namespace Sys2Proof.Machine

/-- `MemRead(off, 4)` (R45).  A read changes no state. -/
def memRead (off : Offset) (s : State) : Word :=
  match windowTarget off with
  | .id => idWord
  | .config => configWord s.width
  | .cmd => 0
  | .status => statusWord s
  | .ctrl => ctrlWord s
  | .operandWord r i => s.readableWord r i
  | .reserved => 0

/-- A write to CMD (R46, spec/40_command.md R64): a legal word is an instruction, any other word is issued as illegal (R65). -/
def writeCmd (v : Word) (s : State) : Host.Outcome State Fault Refusal :=
  match decodeCmd v with
  | .ok i => exec i s
  | .error _ => .next (s.issueCommand none)

/-- `MemWrite(off, 4, v)` (R46). -/
def memWrite (off : Offset) (v : Word) (s : State) : Host.Outcome State Fault Refusal :=
  match windowTarget off with
  | .id => .next s
  | .config => .next s
  | .cmd => writeCmd v s
  | .status => exec (decodeStatus v) s
  | .ctrl => exec (decodeCtrl v) s
  | .operandWord r i => .next (s.operandWrite r i v)
  | .reserved => .next s

/-- The bus error response: a refused read returns 0x00000000 with the error (R43). -/
def refusedResponse (t : Transfer) : Response :=
  match t.dir with
  | .read => ⟨some 0, true⟩
  | .write _ => ⟨none, true⟩

/-- One host access (R43, R45, R46).  A refused one changes no state of the block (log entry 5). -/
def hostAccess (t : Transfer) (s : State) : Host.Outcome State Fault Refusal :=
  if t.wellFormed then
    match t.dir with
    | .read => .next (s.respond (.data (memRead t.off s)))
    | .write v => memWrite t.off v (s.respond .written)
  else .next (s.respond (refusedResponse t))

/-- The offset of the word that holds the byte at `off`. -/
def alignDown (off : Offset) : Offset := BitVec.ofNat 12 (off.toNat / 4 * 4)

/-- The byte at offset `off` as the host reads it: byte `j` of a word is its bits `[8j+7 : 8j]` (R42). -/
def windowByte (off : Offset) (s : State) : Byte := (memRead (alignDown off) s).extractLsb' (8 * (off.toNat % 4)) 8

/-- The byte at a bus address of the platform: none outside the 4 KiB window at `BASE` (R38, R42, spec/00_scope.md R9). -/
def busByte (addr : Nat) (s : State) : Option Byte :=
  if Config.base ≤ addr ∧ addr < Config.base + 4096 then some (windowByte (BitVec.ofNat 12 (addr - Config.base)) s)
  else none

end Sys2Proof.Machine
end

