-- ==== Sys2Proof/Machine/Engine.lean ====
section
/-! DEFINITION. The engine: the result of a job, and the completion step (spec/40_command.md R68, R69). -/

namespace Sys2Proof.Machine

/-- `compute(op, a, b, n)`: total in the operands for the four opcodes, none for an opcode that no job has (R68). -/
def compute (opw : Nat) (op : BitVec 4) (a b n : Nat) : Option JobResult :=
  if op = opModexp then some (computeModexp opw a b n)
  else if op = opModmul then some (computeModmul a b n)
  else if op = opGcd then some (computeGcd a b)
  else if op = opModinv then some (computeModinv a n)
  else none

/-- The result of the job in flight, from the operands as they stand (R69). -/
def State.jobResult (s : State) : Option JobResult := compute s.width.opw s.jobOp (s.x .A) (s.x .B) (s.x .N)

/-- `engine_complete()`, enabled only when BUSY = 1: one atomic step (R69). -/
def engineStep (s : State) : Host.Outcome State Fault Refusal :=
  if s.busy then
    match s.jobResult with
    | some res => .next (s.finish res)
    | none => .fault (.jobOpUndefined s.jobOp)
  else .fault .engineNotEnabled

end Sys2Proof.Machine
end

