-- ==== Sys2Proof/Machine/Turns.lean ====
section
/-! DEFINITION. Whose turn it is: one of the three transitions of spec/00_scope.md R14, in the interleaving that State
holds (spec/40_command.md R63). -/

namespace Sys2Proof.Machine

/-- The agent whose turn is due takes it.  With nothing due, the engine completes a job in flight: the host owes the block
nothing for completion (R70, spec/20_memory.md R53; log entry 3). -/
def takeTurn (s : State) : Host.Outcome State Fault Refusal :=
  match s.turns with
  | [] => if s.busy then engineStep s else .fault .noTransition
  | .host t :: rest => hostAccess t (s.withTurns rest)
  | .engine :: rest => engineStep (s.withTurns rest)
  | .reset :: rest => .next (s.withTurns rest).toReset

end Sys2Proof.Machine
end

