-- ==== Sys2Proof/Machine/Step.lean ====
section
/-! DEFINITION. One step of the machine, and how an instruction is put where the next step takes it. -/

namespace Sys2Proof.Machine

/-- One step: one host access, one completion or one reset (spec/00_scope.md R14). -/
def step (s : State) : Host.Outcome State Fault Refusal := takeTurn s

/-- The block fetches nothing (spec/10_state.md R22): its next instruction is the host write that is due next.  So the word is
put there, at the front of what is due (log entry 9). -/
def State.withFetchWord (s : State) (nbits w : Nat) : State :=
  s.withTurns (.host (tableTransfer nbits w) :: s.turns)

end Sys2Proof.Machine
end

