-- ==== Sys2Proof/Machine/HostNotation.lean ====
section
/-! DEFINITION. The notation of host programs as bus transfers (spec/30_encoding.md R62).  The host's control flow (labels,
and how often a `poll` repeats its read) is outside the block, so a poll is given the number of its reads. -/

namespace Sys2Proof.Machine

/-- One statement of the notation (R62). -/
inductive HostStmt where
  | wr (off : Offset) (imm : Word)
  | rd (off : Offset)
  | poll (off : Offset) (reads : Nat)
  | modexp
  | modmul
  | gcd
  | modinv
  | ldop (r : OperandReg) (int : Nat)
  | wait (reads : Nat)
  | rdres
  | setie (ie : BitVec 2)
  | zeroize (ie : BitVec 2)
  | softreset
  | clrst
  | run (cmd : HostStmt) (reads : Nat)
  deriving DecidableEq, Repr

/-- `ldop`: word `i` of the integer goes to word `i` of the register, in increasing `i` (R62). -/
def ldopTransfers (w : Width) (r : OperandReg) (int : Nat) : List Transfer :=
  (List.range w.nw).map fun i => .writeWord (wordOffset r i) (BitVec.ofNat 32 (int >>> (32 * i)))

/-- `rdres`: word `i` of R is read, in increasing `i` (R62). -/
def rdresTransfers (w : Width) : List Transfer :=
  (List.range w.nw).map fun i => .readWord (wordOffset .R i)

/-- The bus accesses a statement expands to (R62). -/
def HostStmt.transfers (w : Width) (st : HostStmt) : List Transfer :=
  match st with
  | .wr off imm => [.writeWord off imm]
  | .rd off => [.readWord off]
  | .poll off reads => List.replicate reads (.readWord off)
  | .modexp => [.writeWord cmdOffset 0x00000001]
  | .modmul => [.writeWord cmdOffset 0x00000002]
  | .gcd => [.writeWord cmdOffset 0x00000003]
  | .modinv => [.writeWord cmdOffset 0x00000004]
  | .ldop r int => ldopTransfers w r int
  | .wait reads => List.replicate reads (.readWord statusOffset)
  | .rdres => rdresTransfers w
  | .setie ie => [.writeWord ctrlOffset (ie.setWidth 32)]
  | .zeroize ie => [.writeWord ctrlOffset (0x40000000 ||| ie.setWidth 32)]
  | .softreset => [.writeWord ctrlOffset 0x80000000]
  | .clrst => [.writeWord statusOffset 0x0000000E]
  | .run cmd reads => cmd.transfers w ++ List.replicate reads (.readWord statusOffset)

/-- A poll ends with the read whose data, masked, is the value asked for (R62). -/
def pollEnds (resp : Response) (mask val : Word) : Bool := resp.rdata.any fun t => t &&& mask == val

end Sys2Proof.Machine
end

