-- ==== Sys2Proof/Safety.lean ====
section
/-! DEFINITION. The terms claims use: the invariant the rules promise of every reachable state, where a transition exists,
what is due next, and the state in which a command has just been accepted. -/

namespace Sys2Proof.Machine

/-- What every reachable state satisfies. -/
structure State.Inv (s : State) : Prop where
  /-- DONE and ERR are never both 1 (spec/10_state.md R28). -/
  oneOutcome : ¬(s.done = true ∧ s.err = true)
  /-- `ERRCODE != 0` exactly when `ERR = 1` (R30). -/
  errcodeIff : s.errcode ≠ 0 ↔ s.err = true
  /-- ERRCODE is one of the codes 0 to 4 (spec/60_exceptions.md R95, spec/93_implementation_defined.md I7). -/
  errcodeLe : s.errcode.toNat ≤ 4
  /-- While a job is in flight, DONE and ERR are 0 (spec/43_control.md R93). -/
  busyNoOutcome : s.busy = true → s.done = false ∧ s.err = false
  /-- A job in flight has one of the four legal opcodes (spec/40_command.md R64, R65). -/
  busyJobOp : s.busy = true → 1 ≤ s.jobOp.toNat ∧ s.jobOp.toNat ≤ 4

/-- A transition of spec/00_scope.md R14 exists: a host access or a reset is due, or the engine may complete
(spec/40_command.md R63). -/
def State.canMove (s : State) : Bool :=
  match s.turns with
  | [] => s.busy
  | .host _ :: _ => true
  | .engine :: _ => s.busy
  | .reset :: _ => true

/-- The `OP` of a command word, none for a control action (spec/30_encoding.md R58). -/
def commandOp (i : Instr) : Option (BitVec 4) :=
  match i with
  | .modexp => some opModexp
  | .modmul => some opModmul
  | .gcd => some opGcd
  | .modinv => some opModinv
  | .softReset _ => none
  | .zeroize _ _ _ => none
  | .setie _ _ _ => none
  | .clrst _ _ _ _ _ => none

/-- The next turn is the engine's. -/
def State.engineDue (s : State) : Bool :=
  match s.turns with
  | [] => true
  | .host _ :: _ => false
  | .engine :: _ => true
  | .reset :: _ => false

/-- The next turn is a hardware reset. -/
def State.resetDue (s : State) : Bool :=
  match s.turns with
  | [] => false
  | .host _ :: _ => false
  | .engine :: _ => false
  | .reset :: _ => true

/-- The next turn is the host's 32-bit write of `v` to `off`. -/
def State.writeDue (s : State) (off : Offset) (v : Word) : Prop :=
  s.turns.head? = some (.host (.writeWord off v))

/-- The next turn is a host write of a word with bit 31 set to CTRL: a SOFT_RESET (spec/43_control.md R92). -/
def State.softResetDue (s : State) : Prop := ∃ v, s.writeDue ctrlOffset v ∧ v.getLsbD 31 = true

/-- The next turn is a host write that asks for ZEROIZE (spec/43_control.md R91). -/
def State.zeroizeDue (s : State) : Prop :=
  ∃ v, s.writeDue ctrlOffset v ∧ v.getLsbD 31 = false ∧ v.getLsbD 30 = true

/-- The state after the command `op` was accepted in `s` (spec/40_command.md R64). -/
def State.accepted (s : State) (op : BitVec 4) : State :=
  { s with done := false, err := false, errcode := 0, jobOp := op, busy := true }

/-- The state after a job of `s` ended successfully with result `v` (spec/40_command.md R69). -/
def State.succeeded (s : State) (v : Nat) : State :=
  { s with r := BitVec.ofNat _ v, done := true, busy := false }

/-- The state after a command of `s` ended with error code `c` (spec/60_exceptions.md R98). -/
def State.failed (s : State) (c : BitVec 4) : State :=
  { s with err := true, errcode := c, busy := false }

/-- Every operand register, and the width, is the same in `t`. -/
def State.sameOperands (s t : State) : Prop := t.width = s.width ∧ ∀ reg, t.x reg = s.x reg

/-- CTRL's enables are the same in `t`. -/
def State.sameEnables (s t : State) : Prop := t.ieDone = s.ieDone ∧ t.ieErr = s.ieErr

/-- Every field of STATUS is the same in `t`. -/
def State.sameStatus (s t : State) : Prop :=
  t.busy = s.busy ∧ t.done = s.done ∧ t.err = s.err ∧ t.overrun = s.overrun ∧ t.errcode = s.errcode

/-- Steps `k` times, stopping at the first fault or refusal. -/
def runSteps (k : Nat) (s : State) : Host.Outcome State Fault Refusal :=
  match k with
  | 0 => .next s
  | k + 1 =>
    match step s with
    | .next t => runSteps k t
    | .fault r => .fault r
    | .refused r => .refused r

/-- A safe run: none of its `k` steps stops. -/
def SafeRun (k : Nat) (s : State) : Prop := ∃ t, runSteps k s = .next t

/-- A host turn that is no SOFT_RESET: no write of a word with bit 31 set to CTRL. -/
def Turn.keepsJob (turn : Turn) : Bool :=
  match turn with
  | .host t =>
    match t.dir with
    | .read => true
    | .write v => !(t.wellFormed && t.off == ctrlOffset && v.getLsbD 31)
  | .engine => false
  | .reset => false

/-- The turn is the host's. -/
def Turn.isHost (turn : Turn) : Bool :=
  match turn with
  | .host _ => true
  | .engine => false
  | .reset => false

/-- The answers the host gets while the due turns are taken, one for each step up to the first stop. -/
def answers (k : Nat) (s : State) : List (Option Response) :=
  match k with
  | 0 => []
  | k + 1 =>
    match step s with
    | .next t => t.response :: answers k t
    | .fault _ => []
    | .refused _ => []

/-- The square-and-multiply chain a host makes of MODMUL jobs, in the order of the loop of spec/42_modular.md R83: each
result is copied back as an operand of the next job (R89).  None once a job fails. -/
def modmulChain (k a b n r : Nat) : Option Nat :=
  match k with
  | 0 => some r
  | k + 1 =>
    match computeModmul r r n with
    | .err _ => none
    | .ok sq =>
      if b.testBit k then
        match computeModmul sq a n with
        | .err _ => none
        | .ok pr => modmulChain k a b n pr
      else modmulChain k a b n sq

end Sys2Proof.Machine
end

