-- ==== Sys2Proof/Certificates/Slice0/Obligations.lean ====
section
/-! DEFINITION. The statements for the provers.  Each is about every state, so about every legal operand width and every
interleaving of host, engine and reset. -/

open Sys2Proof Sys2Proof.Machine

/-! ### Encoding -/

/-- A few words written out from spec/30_encoding.md R58, R55 and R56 decode to the instruction they stand for. -/
def Obligations.WrittenOutWordsDecode : Prop :=
  decode 0x008 0x00000001 = .ok .modexp ∧ decode 0x008 0x00000004 = .ok .modinv ∧
  decode 0x008 0x00000011 = .error (.reservedBits 1) ∧ decode 0x008 0x00000005 = .error (.reservedOpcode 5) ∧
  decode 0x010 0xC0000003 = .ok (.softReset 0x40000003) ∧ decode 0x010 0x40000001 = .ok (.zeroize 0 false true) ∧
  decode 0x010 0x3FFFFFFE = .ok (.setie 0x0FFFFFFF true false) ∧
  decode 0x00C 0x00000014 = .ok (.clrst 1 false true false false)

/-- Every instruction's word, written to its register, decodes to it (R54 to R56). -/
def Obligations.DecodeOfEncode : Prop :=
  ∀ i : Instr, i.wellFormed = true → decode i.offset (encode i) = .ok i

/-- Every written word that decodes to an instruction is the word the encoder gives, at its register: no bit is dropped. -/
def Obligations.EncodeOfDecode : Prop :=
  ∀ (off : Offset) (v : Word) (i : Instr), decode off v = .ok i → i.offset = off ∧ encode i = v

/-- R58, R60: the only legal command words are 1, 2, 3 and 4; every other word is illegal. -/
def Obligations.OnlyFourCommandWordsAreLegal : Prop :=
  ∀ v : Word,
    (decodeCmd v = .ok .modexp ↔ v = 0x00000001) ∧ (decodeCmd v = .ok .modmul ↔ v = 0x00000002) ∧
    (decodeCmd v = .ok .gcd ↔ v = 0x00000003) ∧ (decodeCmd v = .ok .modinv ↔ v = 0x00000004) ∧
    ((∃ e, decodeCmd v = .error e) ↔ v ≠ 0x00000001 ∧ v ≠ 0x00000002 ∧ v ≠ 0x00000003 ∧ v ≠ 0x00000004)

/-- R59: the decoder agrees with the opcode table, whose rows for one register fit no word in common. -/
def Obligations.DecoderAgreesWithOpcodeTable : Prop :=
  (∀ (off : Offset) (v : Word) (i : Instr), decode off v = .ok i →
    ∃ row ∈ opcodeTable, row.mnemonic = i.mnemonic ∧ row.off = off ∧ row.fits v = true) ∧
  (∀ (row : OpcodeRow) (v : Word), row ∈ opcodeTable → row.fits v = true →
    ∃ i, decode row.off v = .ok i ∧ i.mnemonic = row.mnemonic) ∧
  (∀ (row row' : OpcodeRow) (v : Word), row ∈ opcodeTable → row' ∈ opcodeTable → row.off = row'.off →
    row.fits v = true → row'.fits v = true → row = row')

/-- R55, R56: the ignored bits of a CTRL or STATUS word change nothing. -/
def Obligations.IgnoredBitsHaveNoEffect : Prop :=
  ∀ (s : State) (g g' : BitVec 31) (k k' : BitVec 28) (ieErr ieDone overrun err done busy busy' : Bool),
    exec (.softReset g) s = exec (.softReset g') s ∧
    exec (.zeroize k ieErr ieDone) s = exec (.zeroize k' ieErr ieDone) s ∧
    exec (.setie k ieErr ieDone) s = exec (.setie k' ieErr ieDone) s ∧
    exec (.clrst k overrun err done busy) s = exec (.clrst k' overrun err done busy') s

/-! ### The step -/

/-- A due write that decodes to an instruction: the step is exec of it, in the state where the turn is taken off and the
access answered. -/
def Obligations.StepRunsDecodedInstruction : Prop :=
  ∀ (s : State) (off : Offset) (v : Word) (rest : List Turn) (i : Instr),
    s.turns = .host (.writeWord off v) :: rest → decode off v = .ok i →
    step s = exec i { s with turns := rest, response := some .written }

/-- A bare table word that decodes is what the next step runs (log entry 9, the model's choice). -/
def Obligations.FetchWordRunsNext : Prop :=
  ∀ (s : State) (nbits w : Nat) (i : Instr), decodeTableWord nbits w = some i →
    step (s.withFetchWord nbits w) = exec i { s with response := some .written }

/-- No instruction stops: each of the eight answers a next state from every state. -/
def Obligations.EveryInstructionAnswers : Prop :=
  ∀ (i : Instr) (s : State), ∃ t, exec i s = .next t

/-- In a good state the machine steps exactly where the model has a transition: the host accesses, completions and resets of
R14 and R63, with the model's reading of three cases: with nothing due the engine completes a job in flight (log entry 3), an
engine turn while BUSY = 0 stops (log entry 4), and a refused access goes on to a next state (log entry 5). -/
def Obligations.StepAnswersExactlyWhereEnabled : Prop :=
  ∀ s : State, s.Inv → (s.canMove = true ↔ ∃ t, step s = .next t)

/-! ### Commands -/

/-- R64: what a write to CMD does, for every word and in every state. -/
def Obligations.CmdWriteIssuesCommand : Prop :=
  ∀ (s : State) (v : Word),
    (s.busy = true → memWrite cmdOffset v s = .next { s with overrun := true }) ∧
    (s.busy = false → v = 0x00000001 ∨ v = 0x00000002 ∨ v = 0x00000003 ∨ v = 0x00000004 →
      memWrite cmdOffset v s =
        .next { s with done := false, err := false, errcode := 0, jobOp := v.extractLsb' 0 4, busy := true }) ∧
    (s.busy = false → ¬(v = 0x00000001 ∨ v = 0x00000002 ∨ v = 0x00000003 ∨ v = 0x00000004) →
      memWrite cmdOffset v s = .next { s with done := false, err := true, errcode := 1 })

/-- R64: a legal command word while BUSY = 0 is accepted. -/
def Obligations.IdleCommandIsAccepted : Prop :=
  ∀ s : State, s.busy = false →
    exec .modexp s = .next { s with done := false, err := false, errcode := 0, jobOp := 1, busy := true } ∧
    exec .modmul s = .next { s with done := false, err := false, errcode := 0, jobOp := 2, busy := true } ∧
    exec .gcd s = .next { s with done := false, err := false, errcode := 0, jobOp := 3, busy := true } ∧
    exec .modinv s = .next { s with done := false, err := false, errcode := 0, jobOp := 4, busy := true }

/-- R66 (a): while BUSY = 1 any word written to CMD, legal or not, only sets OVERRUN. -/
def Obligations.BusyCmdWriteOnlySetsOverrun : Prop :=
  ∀ (s : State) (v : Word) (rest : List Turn), s.busy = true → s.turns = .host (.writeWord cmdOffset v) :: rest →
    step s = .next { s with turns := rest, response := some .written, overrun := true }

/-- R65: an illegal command word while BUSY = 0 ends at once in ILLEGAL_OP, with no job in flight after it, and irq then
follows IE_ERR; while BUSY = 1 it is ignored like any CMD write. -/
def Obligations.IllegalCommandWordEndsAtOnce : Prop :=
  ∀ (s : State) (v : Word) (rest : List Turn), s.turns = .host (.writeWord cmdOffset v) :: rest →
    v ≠ 0x00000001 → v ≠ 0x00000002 → v ≠ 0x00000003 → v ≠ 0x00000004 →
    (s.busy = false → ∃ t, step s = .next t ∧
      t = { s with turns := rest, response := some .written, err := true, errcode := 1, busy := false, done := false } ∧
      t.irq = s.ieErr) ∧
    (s.busy = true → step s = .next { s with turns := rest, response := some .written, overrun := true })

/-- R83: MODEXP from an idle state with legal operands is accepted, and its completion writes `A^B mod N`. -/
def Obligations.ModexpWritesPower : Prop :=
  ∀ s : State, s.busy = false → 2 ≤ s.x .N → s.x .A < s.x .N →
    exec .modexp s = .next (s.accepted 1) ∧
    engineStep (s.accepted 1) = .next ((s.accepted 1).succeeded (s.x .A ^ s.x .B % s.x .N)) ∧
    ((s.accepted 1).succeeded (s.x .A ^ s.x .B % s.x .N)).x .R = s.x .A ^ s.x .B % s.x .N

/-- R81, R82, R99: MODEXP with `N < 2` ends with code 2, else with `A >= N` ends with code 3, and R keeps its value. -/
def Obligations.ModexpRejectsBadOperands : Prop :=
  ∀ s : State, s.busy = false → exec .modexp s = .next (s.accepted 1) ∧
    (s.x .N < 2 → engineStep (s.accepted 1) = .next ((s.accepted 1).failed 2)) ∧
    (2 ≤ s.x .N → s.x .N ≤ s.x .A → engineStep (s.accepted 1) = .next ((s.accepted 1).failed 3))

/-- R84: MODEXP with `B = 0` gives 1 for every legal `A`, 0 among them. -/
def Obligations.ModexpZeroExponentGivesOne : Prop :=
  ∀ s : State, s.busy = false → 2 ≤ s.x .N → s.x .A < s.x .N → s.x .B = 0 →
    exec .modexp s = .next (s.accepted 1) ∧ engineStep (s.accepted 1) = .next ((s.accepted 1).succeeded 1)

/-- R88: MODMUL from an idle state with legal operands writes `(A*B) mod N`, from the exact product. -/
def Obligations.ModmulWritesProduct : Prop :=
  ∀ s : State, s.busy = false → 2 ≤ s.x .N → s.x .A < s.x .N → s.x .B < s.x .N →
    exec .modmul s = .next (s.accepted 2) ∧
    engineStep (s.accepted 2) = .next ((s.accepted 2).succeeded (s.x .A * s.x .B % s.x .N)) ∧
    ((s.accepted 2).succeeded (s.x .A * s.x .B % s.x .N)).x .R = s.x .A * s.x .B % s.x .N

/-- R81, R82, R99: MODMUL with `N < 2` ends with code 2, else with `A >= N` or `B >= N` ends with code 3. -/
def Obligations.ModmulRejectsBadOperands : Prop :=
  ∀ s : State, s.busy = false → exec .modmul s = .next (s.accepted 2) ∧
    (s.x .N < 2 → engineStep (s.accepted 2) = .next ((s.accepted 2).failed 2)) ∧
    (2 ≤ s.x .N → s.x .N ≤ s.x .A ∨ s.x .N ≤ s.x .B → engineStep (s.accepted 2) = .next ((s.accepted 2).failed 3))

/-- R74: GCD, the command word 3, from an idle state writes the greatest common divisor, whatever N holds; it never fails. -/
def Obligations.GcdWritesGreatestCommonDivisor : Prop :=
  decode cmdOffset 0x00000003 = .ok .gcd ∧
  ∀ s : State, s.busy = false →
    exec .gcd s = .next (s.accepted 3) ∧
    engineStep (s.accepted 3) = .next ((s.accepted 3).succeeded (Nat.gcd (s.x .A) (s.x .B))) ∧
    ((s.accepted 3).succeeded (Nat.gcd (s.x .A) (s.x .B))).x .R = Nat.gcd (s.x .A) (s.x .B)

/-- R75: the laws of the GCD result, read from R after the job. -/
def Obligations.GcdResultLaws : Prop :=
  ∀ s t : State, s.busy = false → engineStep (s.accepted 3) = .next t →
    t.x .R ∣ s.x .A ∧ t.x .R ∣ s.x .B ∧ (∀ c, c ∣ s.x .A → c ∣ s.x .B → c ∣ t.x .R) ∧
    (t.x .R = 0 ↔ s.x .A = 0 ∧ s.x .B = 0) ∧
    (∀ s' t' : State, s'.x .A = s.x .B → s'.x .B = s.x .A → engineStep (s'.accepted 3) = .next t' → t'.x .R = t.x .R)

/-- R77, R78: MODINV of a unit writes the unique inverse in `[0, N)`. -/
def Obligations.ModinvWritesUniqueInverse : Prop :=
  ∀ s : State, s.busy = false → 2 ≤ s.x .N → s.x .A < s.x .N → Nat.gcd (s.x .A) (s.x .N) = 1 →
    exec .modinv s = .next (s.accepted 4) ∧
    ∃ d, engineStep (s.accepted 4) = .next ((s.accepted 4).succeeded d) ∧ ((s.accepted 4).succeeded d).x .R = d ∧
      d < s.x .N ∧ s.x .A * d % s.x .N = 1 ∧ ∀ d', d' < s.x .N → s.x .A * d' % s.x .N = 1 → d' = d

/-- R79, R82, R99: MODINV ends with code 2 when `N < 2`, else 3 when `A >= N`, else 4 when `gcd(A, N) != 1`. -/
def Obligations.ModinvRejectsBadOperands : Prop :=
  ∀ s : State, s.busy = false → exec .modinv s = .next (s.accepted 4) ∧
    (s.x .N < 2 → engineStep (s.accepted 4) = .next ((s.accepted 4).failed 2)) ∧
    (2 ≤ s.x .N → s.x .N ≤ s.x .A → engineStep (s.accepted 4) = .next ((s.accepted 4).failed 3)) ∧
    (2 ≤ s.x .N → s.x .A < s.x .N → Nat.gcd (s.x .A) (s.x .N) ≠ 1 →
      engineStep (s.accepted 4) = .next ((s.accepted 4).failed 4))

/-- R89: for legal operands a host's chain of MODMULs ends with the R of one MODEXP. -/
def Obligations.ModexpEqualsModmulChain : Prop :=
  ∀ (s : State) (v : Nat), s.busy = false → 2 ≤ s.x .N → s.x .A < s.x .N →
    (modmulChain s.width.opw (s.x .A) (s.x .B) (s.x .N) 1 = some v ↔
      engineStep (s.accepted 1) = .next ((s.accepted 1).succeeded v) ∧ v < s.x .N)

/-- R86: the RSA round trip, on two MODEXP jobs under a key whose private exponent `d` a MODINV job gave (R80).  The key
job and the two jobs may run on any states whose operands are those named. -/
def Obligations.RsaRoundTrip : Prop :=
  ∀ (p q e d v : Nat) (key keyDone s s' : State), p.Prime → q.Prime → p ≠ q →
    key.x .A = e → key.x .N = (p - 1) * (q - 1) → engineStep (key.accepted 4) = .next keyDone → keyDone.done = true →
    keyDone.x .R = d → v < p * q →
    s.x .A = v → s.x .B = e → s.x .N = p * q → s'.x .B = d → s'.x .N = p * q →
    ∃ c, c < p * q ∧ engineStep (s.accepted 1) = .next ((s.accepted 1).succeeded c) ∧
      (s'.x .A = c → engineStep (s'.accepted 1) = .next ((s'.accepted 1).succeeded v))

/-- R20: every value a command writes to R lies in `[0, 2^OPW)`, so it is not truncated; the bound for each command. -/
def Obligations.ResultsAreNeverTruncated : Prop :=
  ∀ (s : State) (v : Nat), s.jobResult = some (.ok v) →
    v < 2 ^ s.width.opw ∧ (s.succeeded v).x .R = v ∧
    (s.jobOp ≠ 3 → v < s.x .N ∧ s.x .N ≤ 2 ^ s.width.opw - 1) ∧
    (s.jobOp = 3 → v ≤ max (s.x .A) (s.x .B) ∧ max (s.x .A) (s.x .B) ≤ 2 ^ s.width.opw - 1 ∧
      (s.x .B = 0 → v = s.x .A) ∧ (s.x .B ≠ 0 → v ∣ s.x .B ∧ v ≤ s.x .B))

/-- R72: two jobs of one block with the same opcode and operands end alike.  A job in flight has ERR = 0 (R64, kept by
StepKeepsInvariant). -/
def Obligations.SameJobSameOutcome : Prop :=
  ∀ s s' t t' : State, s'.width = s.width → s'.jobOp = s.jobOp → s'.x .A = s.x .A → s'.x .B = s.x .B →
    s'.x .N = s.x .N → s.err = false → s'.err = false → engineStep s = .next t → engineStep s' = .next t' →
    t'.err = t.err ∧ (t.err = true → t'.errcode = t.errcode) ∧ (t.err = false → t'.x .R = t.x .R)

/-- R69: the completion step as a whole: enabled only when BUSY = 1; success writes R and DONE, an error writes ERR and
ERRCODE only, and both clear BUSY. -/
def Obligations.CompletionIsOneAtomicStep : Prop :=
  ∀ s : State,
    (s.busy = false → ∀ t, engineStep s ≠ .next t) ∧
    (s.busy = true →
      (∀ v, compute s.width.opw s.jobOp (s.x .A) (s.x .B) (s.x .N) = some (.ok v) →
        engineStep s = .next { s with r := BitVec.ofNat _ v, done := true, busy := false }) ∧
      (∀ e, compute s.width.opw s.jobOp (s.x .A) (s.x .B) (s.x .N) = some (.err e) →
        engineStep s = .next { s with err := true, errcode := e.code, busy := false }))

/-- R71: a job computes on the operands at the moment of acceptance, whatever the host does to the block before the
completion, SOFT_RESET excepted.  That the run goes on past a refused access is the model's reading (log entry 5). -/
def Obligations.JobRunsOnOperandsAtAcceptance : Prop :=
  ∀ (s : State) (i : Instr) (op : BitVec 4) (ts rest : List Turn), s.busy = false → commandOp i = some op →
    s.turns = .host i.transfer :: (ts ++ rest) → (∀ turn ∈ ts, turn.keepsJob = true) →
    ∃ t, runSteps (ts.length + 1) s = .next t ∧ t.busy = true ∧ t.turns = rest ∧ t.jobOp = op ∧ s.sameOperands t ∧
      t.jobResult = compute s.width.opw op (s.x .A) (s.x .B) (s.x .N)

/-- R70: every job in flight ends (or is discarded) after finitely many steps, at most one more than are due.  It rests on
the model's form of weak fairness (log entry 3), and on the run going on past a refused access (log entry 5). -/
def Obligations.EveryJobEnds : Prop :=
  ∀ s : State, s.Inv → s.busy = true →
    ∃ k t, k ≤ s.turns.length + 1 ∧ runSteps k s = .next t ∧ t.busy = false

/-! ### Control actions -/

/-- R90: a CTRL write as a whole. -/
def Obligations.CtrlWriteEffect : Prop :=
  ∀ (s : State) (v : Word),
    (v.getLsbD 31 = true → memWrite ctrlOffset v s = .next s.toReset) ∧
    (v.getLsbD 31 = false → v.getLsbD 30 = false →
      memWrite ctrlOffset v s = .next { s with ieDone := v.getLsbD 0, ieErr := v.getLsbD 1 }) ∧
    (v.getLsbD 31 = false → v.getLsbD 30 = true → s.busy = true →
      memWrite ctrlOffset v s = .next { s with ieDone := v.getLsbD 0, ieErr := v.getLsbD 1, overrun := true }) ∧
    (v.getLsbD 31 = false → v.getLsbD 30 = true → s.busy = false →
      memWrite ctrlOffset v s =
        .next { s with ieDone := v.getLsbD 0, ieErr := v.getLsbD 1, a := 0, b := 0, n := 0, r := 0 })

/-- R90: SETIE sets the two enables and nothing else, in every state. -/
def Obligations.SetieSetsEnables : Prop :=
  ∀ (s : State) (rsvd : BitVec 28) (ieErr ieDone : Bool),
    exec (.setie rsvd ieErr ieDone) s = .next { s with ieDone := ieDone, ieErr := ieErr }

/-- R91: ZEROIZE, a CTRL write with bits 31:30 = 01, clears A, B, N and R while BUSY = 0 and no STATUS field changes; while
BUSY = 1 it clears nothing and sets OVERRUN.  The enables take bits 1:0 either way. -/
def Obligations.ZeroizeClearsOperands : Prop :=
  (∀ v : Word, v.getLsbD 31 = false → v.getLsbD 30 = true →
    decode ctrlOffset v = .ok (.zeroize (v.extractLsb' 2 28) (v.getLsbD 1) (v.getLsbD 0))) ∧
  ∀ (s : State) (rsvd : BitVec 28) (ieErr ieDone : Bool),
    (s.busy = false → exec (.zeroize rsvd ieErr ieDone) s =
      .next { s with ieDone := ieDone, ieErr := ieErr, a := 0, b := 0, n := 0, r := 0 }) ∧
    (s.busy = true → exec (.zeroize rsvd ieErr ieDone) s =
      .next { s with ieDone := ieDone, ieErr := ieErr, overrun := true })

/-- R92, R36: SOFT_RESET, a CTRL write with bit 31 = 1, returns every field of R16 to its reset value, in every state, and no
job stays in flight. -/
def Obligations.SoftResetReturnsToResetState : Prop :=
  (∀ v : Word, v.getLsbD 31 = true → decode ctrlOffset v = .ok (.softReset (v.extractLsb' 0 31))) ∧
  ∀ (s : State) (ignored : BitVec 31), ∃ t, exec (.softReset ignored) s = .next t ∧
    (∀ reg, t.x reg = 0) ∧ t.ieDone = false ∧ t.ieErr = false ∧ t.busy = false ∧ t.done = false ∧ t.err = false ∧
    t.overrun = false ∧ t.errcode = 0 ∧ t.jobOp = 0 ∧ t.irq = false ∧ t.width = s.width ∧ t.turns = s.turns

/-- R109: a hardware reset is one step, and gives the same state as SOFT_RESET. -/
def Obligations.HardwareResetIsOneStep : Prop :=
  ∀ (s : State) (rest : List Turn), s.turns = .reset :: rest →
    step s = .next
      { s with
        a := 0, b := 0, n := 0, r := 0, ieDone := false, ieErr := false, busy := false, done := false, err := false,
        overrun := false, errcode := 0, jobOp := 0, turns := rest } ∧
    ∀ ignored, exec (.softReset ignored) { s with turns := rest } = step s

/-- R110: after reset, at every width, the block is idle and accepts commands, with no outcome pending, irq = 0 and both
sources masked. -/
def Obligations.ResetStateIsIdle : Prop :=
  ∀ w : Width,
    (State.resetOf w).busy = false ∧ (State.resetOf w).done = false ∧ (State.resetOf w).err = false ∧
    (State.resetOf w).irq = false ∧ (State.resetOf w).ieDone = false ∧ (State.resetOf w).ieErr = false ∧
    ∀ i op, commandOp i = some op → exec i (State.resetOf w) = .next ((State.resetOf w).accepted op)

/-- R93: a STATUS write of any word, at any time, clears the flags whose bits are 1, and does nothing else. -/
def Obligations.StatusWriteClearsStrobedFlags : Prop :=
  (∀ (s : State) (v : Word), memWrite statusOffset v s =
    .next { s with
      done := if v.getLsbD 1 then false else s.done
      err := if v.getLsbD 2 then false else s.err
      errcode := if v.getLsbD 2 then 0 else s.errcode
      overrun := if v.getLsbD 3 then false else s.overrun }) ∧
  ∀ (s : State) (ignored : BitVec 28) (overrun err done busy : Bool),
    exec (.clrst ignored overrun err done busy) s =
      .next { s with
        done := if done then false else s.done
        err := if err then false else s.err
        errcode := if err then 0 else s.errcode
        overrun := if overrun then false else s.overrun }

/-- R35, R102: what raises and what drops the interrupt output: the strobes, the enables, the acceptance of any of the four
commands, and a completion. -/
def Obligations.InterruptOutputFollowsFlagsAndEnables : Prop :=
  ∀ (s : State) (k : BitVec 28) (ieErr ieDone overrun busy : Bool),
    (∃ t, exec (.clrst k overrun true true busy) s = .next t ∧ t.irq = false) ∧
    (∃ t, exec (.setie k false false) s = .next t ∧ t.irq = false ∧ s.sameStatus t) ∧
    (s.done = true → ∃ t, exec (.setie k ieErr true) s = .next t ∧ t.irq = true) ∧
    (s.err = true → ∃ t, exec (.setie k true ieDone) s = .next t ∧ t.irq = true) ∧
    (s.busy = false → ∀ i op, commandOp i = some op → ∃ t, exec i s = .next t ∧ t.irq = false) ∧
    (s.busy = true → s.done = false → s.err = false →
      (∀ v, s.jobResult = some (.ok v) → ∃ t, engineStep s = .next t ∧ t.irq = s.ieDone) ∧
      (∀ e, s.jobResult = some (.err e) → ∃ t, engineStep s = .next t ∧ t.irq = s.ieErr))

/-! ### The register window -/

/-- R45: what a read returns at every offset, a refused one too, and that it changes no state of the block.  That the model
goes on after a refused read is its reading of R43's word fault (log entry 5). -/
def Obligations.HostReadReturnsWindowMap : Prop :=
  (∀ (s : State) (tr : Transfer) (rest : List Turn), s.turns = .host tr :: rest → tr.dir = .read →
    tr.size ≠ .word ∨ tr.off.toNat % 4 ≠ 0 → step s = .next { s with turns := rest, response := some ⟨some 0, true⟩ }) ∧
  ∀ (s : State) (off : Offset) (rest : List Turn), s.turns = .host (.readWord off) :: rest → off.toNat % 4 = 0 →
    ∃ v : Word, step s = .next { s with turns := rest, response := some (.data v) } ∧
      (off.toNat = 0x000 → v = 0x4D455850) ∧
      (off.toNat = 0x004 → v.toNat = 0x00010000 + s.width.opw) ∧
      (off.toNat = 0x00C → v.toNat =
        s.busy.toNat + 2 * s.done.toNat + 4 * s.err.toNat + 8 * s.overrun.toNat + 16 * s.errcode.toNat) ∧
      (off.toNat = 0x010 → v.toNat = s.ieDone.toNat + 2 * s.ieErr.toNat) ∧
      (∀ i, i < s.width.nw → off.toNat = 0x400 + 4 * i → v.toNat = s.x .R / 2 ^ (32 * i) % 2 ^ 32) ∧
      (off.toNat ≠ 0x000 → off.toNat ≠ 0x004 → off.toNat ≠ 0x00C → off.toNat ≠ 0x010 →
        (∀ i, i < s.width.nw → off.toNat ≠ 0x400 + 4 * i) → v = 0)

/-- R46, R21: a write to word `i < NW` of A, B or N while BUSY = 0 sets that word, and only that word. -/
def Obligations.OperandWriteSetsOneWord : Prop :=
  ∀ (s : State) (reg : OperandReg) (i : Nat) (v : Word) (rest : List Turn), reg ≠ .R → i < s.width.nw →
    s.busy = false → s.turns = .host (.writeWord (wordOffset reg i) v) :: rest →
    ∃ t, step s = .next t ∧ t.x reg / 2 ^ (32 * i) % 2 ^ 32 = v.toNat ∧
      (∀ j, j ≠ i → t.x reg / 2 ^ (32 * j) % 2 ^ 32 = s.x reg / 2 ^ (32 * j) % 2 ^ 32) ∧
      (∀ reg', reg' ≠ reg → t.x reg' = s.x reg') ∧ t.width = s.width ∧ s.sameEnables t ∧ s.sameStatus t ∧
      t.jobOp = s.jobOp ∧ t.turns = rest ∧ t.response = some .written ∧
      ∀ off, windowByte off t = windowByte off s

/-- R66 (b): a write to word `i < NW` of A, B or N while BUSY = 1 only sets OVERRUN. -/
def Obligations.BusyOperandWriteOnlySetsOverrun : Prop :=
  ∀ (s : State) (reg : OperandReg) (i : Nat) (v : Word) (rest : List Turn), reg ≠ .R → i < s.width.nw →
    s.busy = true → s.turns = .host (.writeWord (wordOffset reg i) v) :: rest →
    step s = .next { s with turns := rest, response := some .written, overrun := true }

/-- R40, R41, R19, R23, R24: writes to ID, CONFIG, R, words past `NW` and reserved offsets are ignored, without OVERRUN. -/
def Obligations.ReadOnlyAndReservedWritesAreIgnored : Prop :=
  ∀ (s : State) (off : Offset) (v : Word) (rest : List Turn), s.turns = .host (.writeWord off v) :: rest →
    off.toNat % 4 = 0 →
    (off.toNat = 0x000 ∨ off.toNat = 0x004 ∨ (0x014 ≤ off.toNat ∧ off.toNat < 0x100) ∨
      (∃ reg i, s.width.nw ≤ i ∧ i < 64 ∧ off.toNat = OperandReg.base reg + 4 * i) ∨ 0x400 ≤ off.toNat) →
    step s = .next { s with turns := rest, response := some .written }

/-- R43, R97: an access that is not an aligned 32-bit one gets the bus error, a refused read with data 0, and changes no
state of the block (log entry 5: the model goes on after it). -/
def Obligations.RefusedAccessChangesNothing : Prop :=
  ∀ (s : State) (t : Transfer) (rest : List Turn), s.turns = .host t :: rest →
    (t.size ≠ .word ∨ t.off.toNat % 4 ≠ 0) →
    step s = .next { s with
      turns := rest
      response := some (match t.dir with | .read => ⟨some 0, true⟩ | .write _ => ⟨none, true⟩) }

/-- R21: the integer of an operand register is the sum of its words, least significant word first. -/
def Obligations.OperandIsSumOfWords : Prop :=
  ∀ (w : Width) (x : BitVec w.opw), x.toNat = ∑ i ∈ Finset.range w.nw, (wordOf x i).toNat * 2 ^ (32 * i)

/-- R42: an aligned word is made of its four bytes, little-endian; the bus sees no byte outside the window at BASE. -/
def Obligations.WindowBytesAreLittleEndian : Prop :=
  ∀ (s : State) (off : Offset), off.toNat % 4 = 0 →
    (memRead off s).toNat = (windowByte off s).toNat + 256 * (windowByte (off + 1) s).toNat +
      65536 * (windowByte (off + 2) s).toNat + 16777216 * (windowByte (off + 3) s).toNat ∧
    (∀ j, j < 4 → busByte (Config.base + off.toNat + j) s = some (windowByte (off + BitVec.ofNat 12 j) s)) ∧
    (∀ addr, addr < Config.base ∨ Config.base + 4096 ≤ addr → busByte addr s = none)

/-- R62, R114: writing all `NW` words of an integer while idle makes the register hold it, whatever it held before. -/
def Obligations.LoadingAllWordsSetsOperand : Prop :=
  ∀ (s : State) (reg : OperandReg) (v : Nat) (rest : List Turn), reg ≠ .R → s.busy = false → v < 2 ^ s.width.opw →
    s.turns = (ldopTransfers s.width reg v).map .host ++ rest →
    runSteps s.width.nw s = .next { s.setX reg v with turns := rest, response := some .written }

/-- R18: the host learns nothing of A, B and N from the bus: as long as the engine takes no turn, its answers are the same
whatever they hold. -/
def Obligations.AnswersIgnoreOperandsUntilCompletion : Prop :=
  ∀ (s : State) (a b n : BitVec s.width.opw), (∀ turn ∈ s.turns, turn ≠ .engine) →
    answers s.turns.length { s with a := a, b := b, n := n } = answers s.turns.length s

/-! ### What changes what -/

/-- The frame of every instruction on the state. -/
def Obligations.InstructionFrameOnState : Prop :=
  ∀ (i : Instr) (s t : State), exec i s = .next t →
    t.width = s.width ∧ t.turns = s.turns ∧ t.response = s.response ∧
    ((commandOp i).isSome = true → s.sameOperands t ∧ s.sameEnables t ∧ (s.busy = false → t.overrun = s.overrun) ∧
      (s.busy = true → t.jobOp = s.jobOp ∧ t.busy = s.busy ∧ t.done = s.done ∧ t.err = s.err ∧ t.errcode = s.errcode)) ∧
    (∀ k ieErr ieDone, i = .setie k ieErr ieDone → s.sameOperands t ∧ s.sameStatus t ∧ t.jobOp = s.jobOp) ∧
    (∀ k overrun err done busy, i = .clrst k overrun err done busy →
      s.sameOperands t ∧ s.sameEnables t ∧ t.busy = s.busy ∧ t.jobOp = s.jobOp ∧ (done = false → t.done = s.done) ∧
      (err = false → t.err = s.err ∧ t.errcode = s.errcode) ∧ (overrun = false → t.overrun = s.overrun)) ∧
    (∀ k ieErr ieDone, i = .zeroize k ieErr ieDone → t.jobOp = s.jobOp ∧
      (s.busy = false → s.sameStatus t) ∧
      (s.busy = true → s.sameOperands t ∧ t.busy = s.busy ∧ t.done = s.done ∧ t.err = s.err ∧ t.errcode = s.errcode))

/-- The frame of every instruction on the bytes of the register window. -/
def Obligations.InstructionFrameOnWindowBytes : Prop :=
  ∀ (i : Instr) (s t : State) (off : Offset), exec i s = .next t →
    ((commandOp i).isSome = true → off.toNat / 4 ≠ 3 → windowByte off t = windowByte off s) ∧
    (∀ k overrun err done busy, i = .clrst k overrun err done busy → off.toNat / 4 ≠ 3 →
      windowByte off t = windowByte off s) ∧
    (∀ k ieErr ieDone, i = .setie k ieErr ieDone → off.toNat / 4 ≠ 4 → windowByte off t = windowByte off s) ∧
    (∀ k ieErr ieDone, i = .zeroize k ieErr ieDone → s.busy = true → off.toNat / 4 ≠ 3 → off.toNat / 4 ≠ 4 →
      windowByte off t = windowByte off s) ∧
    (∀ k ieErr ieDone, i = .zeroize k ieErr ieDone → s.busy = false → off.toNat / 4 ≠ 4 →
      off.toNat < 0x400 ∨ 0x500 ≤ off.toNat → windowByte off t = windowByte off s) ∧
    (∀ g, i = .softReset g → off.toNat / 4 ≠ 3 → off.toNat / 4 ≠ 4 → off.toNat < 0x400 ∨ 0x500 ≤ off.toNat →
      windowByte off t = windowByte off s)

/-- R69, R98: the frame of the completion step, on the state and on the bytes of the window. -/
def Obligations.CompletionFrame : Prop :=
  ∀ s t : State, engineStep s = .next t →
    t.width = s.width ∧ t.x .A = s.x .A ∧ t.x .B = s.x .B ∧ t.x .N = s.x .N ∧ s.sameEnables t ∧ t.overrun = s.overrun ∧
    t.jobOp = s.jobOp ∧ t.turns = s.turns ∧ t.response = s.response ∧ (s.err = false → t.err = true → t.x .R = s.x .R) ∧
    (∀ off : Offset, off.toNat / 4 ≠ 3 → off.toNat < 0x400 ∨ 0x500 ≤ off.toNat → windowByte off t = windowByte off s)

/-- R18: only a host write to the register's window, ZEROIZE and a reset change A, B or N. -/
def Obligations.OnlyHostChangesOperands : Prop :=
  ∀ (s t : State) (reg : OperandReg), reg ≠ .R → step s = .next t → t.x reg ≠ s.x reg →
    s.resetDue = true ∨ s.softResetDue ∨ (s.zeroizeDue ∧ s.busy = false) ∨
    (s.busy = false ∧ ∃ i v, i < s.width.nw ∧ s.writeDue (wordOffset reg i) v)

/-- R19: host writes to R are ignored without error, and R changes only at a successful completion, by ZEROIZE, or by a
reset. -/
def Obligations.OnlyCompletionOrClearingChangesR : Prop :=
  (∀ (s : State) (i : Nat) (v : Word) (rest : List Turn), i < 64 →
    s.turns = .host (.writeWord (wordOffset .R i) v) :: rest →
    step s = .next { s with turns := rest, response := some .written }) ∧
  ∀ s t : State, step s = .next t → t.x .R ≠ s.x .R →
    s.resetDue = true ∨ s.softResetDue ∨ (s.zeroizeDue ∧ s.busy = false) ∨
    (s.engineDue = true ∧ s.busy = true ∧ t.done = true ∧ t.busy = false ∧ s.jobResult = some (.ok (t.x .R)))

/-- R27: what sets BUSY and what clears it; nothing else changes it. -/
def Obligations.WhatChangesBusy : Prop :=
  ∀ s t : State, step s = .next t →
    (s.busy = false → (t.busy = true ↔
      s.writeDue cmdOffset 1 ∨ s.writeDue cmdOffset 2 ∨ s.writeDue cmdOffset 3 ∨ s.writeDue cmdOffset 4)) ∧
    (s.busy = true → (t.busy = false ↔ s.engineDue = true ∨ s.resetDue = true ∨ s.softResetDue))

/-- R28: what sets DONE and the four cases that clear it. -/
def Obligations.WhatChangesDone : Prop :=
  ∀ s t : State, s.Inv → step s = .next t →
    ((s.done = false ∧ t.done = true) ↔ (s.engineDue = true ∧ ∃ v, s.jobResult = some (.ok v))) ∧
    (s.done = true → (t.done = false ↔
      (∃ v, s.writeDue cmdOffset v) ∨ (∃ v, s.writeDue statusOffset v ∧ v.getLsbD 1 = true) ∨ s.softResetDue ∨
      s.resetDue = true)) ∧
    ¬(t.done = true ∧ t.err = true)

/-- R29, R30: what sets ERR, with a non-zero code, and the four cases that clear it, with ERRCODE. -/
def Obligations.WhatChangesErr : Prop :=
  ∀ s t : State, s.Inv → step s = .next t →
    (s.err = false → (t.err = true ↔
      (s.engineDue = true ∧ ∃ e, s.jobResult = some (.err e)) ∨
      (s.busy = false ∧ ∃ v, s.writeDue cmdOffset v ∧ ∃ e, decodeCmd v = .error e))) ∧
    (s.err = true → (t.err = false ↔
      (∃ v i, s.writeDue cmdOffset v ∧ decodeCmd v = .ok i) ∨
      (∃ v, s.writeDue statusOffset v ∧ v.getLsbD 2 = true) ∨ s.softResetDue ∨ s.resetDue = true)) ∧
    (t.err = true ↔ t.errcode ≠ 0)

/-- R31: OVERRUN is set exactly by a host write ignored because BUSY = 1, and cleared exactly by a write of 1 to STATUS
bit 3, by SOFT_RESET and by reset.  It never affects a command's result. -/
def Obligations.OverrunIsSticky : Prop :=
  (∀ s t : State, step s = .next t →
    (s.overrun = false → (t.overrun = true ↔ s.busy = true ∧
      ((∃ v, s.writeDue cmdOffset v) ∨ s.zeroizeDue ∨
        ∃ reg i v, reg ≠ OperandReg.R ∧ i < s.width.nw ∧ s.writeDue (wordOffset reg i) v))) ∧
    (s.overrun = true → (t.overrun = false ↔
      (∃ v, s.writeDue statusOffset v ∧ v.getLsbD 3 = true) ∨ s.softResetDue ∨ s.resetDue = true))) ∧
  ∀ (s : State) (b : Bool), ({ s with overrun := b } : State).jobResult = s.jobResult

/-! ### Invariants -/

/-- What every reachable state satisfies holds after reset, at every width. -/
def Obligations.ResetSatisfiesInvariant : Prop := ∀ w : Width, (State.resetOf w).Inv

/-- Every step keeps the invariant of R28, R30, R95 and R93, from every state that has it. -/
def Obligations.StepKeepsInvariant : Prop := ∀ s t : State, s.Inv → step s = .next t → t.Inv

/-- No step changes the operand width. -/
def Obligations.StepKeepsWidth : Prop := ∀ s t : State, step s = .next t → t.width = s.width

/-- R66, R71: a step that is no completion, reset or SOFT_RESET keeps the job in flight: BUSY, JOB_OP, every operand register
(R too); from a good state it leaves no outcome either. -/
def Obligations.StepKeepsJobInFlight : Prop :=
  ∀ s t : State, s.busy = true → s.engineDue = false → s.resetDue = false → ¬ s.softResetDue → step s = .next t →
    t.busy = true ∧ t.jobOp = s.jobOp ∧ s.sameOperands t ∧ (s.Inv → t.done = false ∧ t.err = false ∧ t.errcode = 0)
end

