-- ==== Sys2Proof/Laws/Arith.lean ====
section
/-! SUPPORT. One spec lemma per loop of the compute arms, each by induction along the loop. -/

namespace Sys2Proof.Machine

/-- The Euclidean loop gives the greatest common divisor once its fuel exceeds the second argument (spec/41_keyderiv.md
R74, R75). -/
theorem gcdLoop_eq_gcd (fuel a b : Nat) (h : b < fuel) : gcdLoop fuel a b = Nat.gcd a b := by
  induction fuel generalizing a b with
  | zero => omega
  | succ fuel ih =>
    rw [gcdLoop]
    split
    · next hb => simp [hb]
    · next hb =>
      rw [ih b (a % b) (Nat.lt_of_lt_of_le (Nat.mod_lt a (Nat.pos_of_ne_zero hb)) (Nat.le_of_lt_succ h)),
        Nat.gcd_comm b, ← Nat.gcd_rec, Nat.gcd_comm]

/-- The loop of MODEXP over the low `k` bits of the exponent raises the running value to `2^k` and multiplies in the
power of those bits (spec/42_modular.md R83). -/
theorem modexpLoop_modEq (k a b n r : Nat) : modexpLoop k a b n r ≡ r ^ 2 ^ k * a ^ (b % 2 ^ k) [MOD n] := by
  induction k generalizing r with
  | zero => simp [modexpLoop, Nat.mod_one, Nat.ModEq.refl]
  | succ k ih =>
    have hb : b % 2 ^ (k + 1) = 2 ^ k * (b.testBit k).toNat + b % 2 ^ k := by
      rw [Nat.testBit_eq_decide_div_mod_eq, Nat.pow_succ, Nat.mod_mul, Nat.add_comm]
      rcases Nat.mod_two_eq_zero_or_one (b / 2 ^ k) with h | h <;> simp [h]
    have sq : r * r % n ≡ r ^ 2 [MOD n] := by simpa [pow_two] using Nat.mod_modEq (r * r) n
    rw [modexpLoop]
    split
    · next ht =>
      have step : r * r % n * a % n ≡ r ^ 2 * a [MOD n] := (Nat.mod_modEq _ n).trans (sq.mul_right a)
      have e : r ^ 2 ^ (k + 1) * a ^ (b % 2 ^ (k + 1)) = (r ^ 2 * a) ^ 2 ^ k * a ^ (b % 2 ^ k) := by
        rw [hb, ht]
        simp only [Bool.toNat_true]
        ring
      rw [e]
      exact (ih _).trans ((step.pow _).mul_right _)
    · next ht =>
      have e : r ^ 2 ^ (k + 1) * a ^ (b % 2 ^ (k + 1)) = (r ^ 2) ^ 2 ^ k * a ^ (b % 2 ^ k) := by
        rw [hb, Bool.eq_false_of_not_eq_true ht]
        simp only [Bool.toNat_false]
        ring
      rw [e]
      exact (ih _).trans ((sq.pow _).mul_right _)

/-- Every value of the MODEXP loop after its start is reduced. -/
theorem modexpLoop_lt (k a b n r : Nat) (hr : r < n) : modexpLoop k a b n r < n := by
  induction k generalizing r with
  | zero => exact hr
  | succ k ih =>
    rw [modexpLoop]
    split <;> exact ih _ (Nat.mod_lt _ (by omega))

/-- What the extended Euclidean loop of spec/41_keyderiv.md R77 keeps: the Bézout identities, and the gcd. -/
structure EuclidState.Good (a n : Nat) (e : EuclidState) : Prop where
  bezout0 : (a : Int) * e.s0 + n * e.t0 = e.r0
  bezout1 : (a : Int) * e.s1 + n * e.t1 = e.r1
  gcd_eq : Nat.gcd e.r0 e.r1 = Nat.gcd a n

theorem EuclidState.start_good (a n : Nat) : (EuclidState.start a n).Good a n :=
  ⟨by simp [EuclidState.start], by simp [EuclidState.start], rfl⟩

theorem EuclidState.Good.round {a n : Nat} {e : EuclidState} (h : e.Good a n) : e.round.Good a n := by
  refine ⟨h.bezout1, ?_, ?_⟩
  · have hd : (e.r0 : Int) = e.r1 * ((e.r0 / e.r1 : Nat) : Int) + ((e.r0 % e.r1 : Nat) : Int) := by
      exact_mod_cast (Nat.div_add_mod e.r0 e.r1).symm
    have h0 := h.bezout0
    have h1 := h.bezout1
    simp only [EuclidState.round]
    linear_combination h0 - ((e.r0 / e.r1 : Nat) : Int) * h1 + hd
  · simp only [EuclidState.round]
    rw [← h.gcd_eq, Nat.gcd_comm e.r1, ← Nat.gcd_rec, Nat.gcd_comm]

/-- With enough fuel the loop ends on remainder 0, with the invariant kept: so `r0` is the gcd and `s0` its coefficient. -/
theorem euclidLoop_spec (a n fuel : Nat) (e : EuclidState) (hf : e.r1 < fuel) (h : e.Good a n) :
    (euclidLoop fuel e).r0 = Nat.gcd a n ∧
    (a : Int) * (euclidLoop fuel e).s0 + n * (euclidLoop fuel e).t0 = Nat.gcd a n := by
  induction fuel generalizing e with
  | zero => omega
  | succ fuel ih =>
    rw [euclidLoop]
    split
    · next h0 =>
      have hg : e.r0 = Nat.gcd a n := by rw [← h.gcd_eq, h0, Nat.gcd_zero_right]
      exact ⟨hg, by rw [h.bezout0, hg]⟩
    · next h0 =>
      refine ih e.round ?_ h.round
      have := Nat.mod_lt e.r0 (Nat.pos_of_ne_zero h0)
      simp only [EuclidState.round]
      omega

/-- Adding `n` until non-negative gives a non-negative value congruent to the start, below `n` if the start is
(spec/41_keyderiv.md R77, R78). -/
theorem addUntilNonneg_spec (fuel n : Nat) (s : Int) (hn : 1 ≤ n) (hf : (-s).toNat ≤ fuel) :
    0 ≤ addUntilNonneg fuel s n ∧ (∃ k : Nat, addUntilNonneg fuel s n = s + k * n) ∧
    (s < n → addUntilNonneg fuel s n < n) := by
  induction fuel generalizing s with
  | zero => exact ⟨by simp only [addUntilNonneg]; omega, ⟨0, by simp [addUntilNonneg]⟩, id⟩
  | succ fuel ih =>
    rw [addUntilNonneg]
    split
    · obtain ⟨h1, ⟨k, h2⟩, h3⟩ := ih (s + n) (by omega)
      refine ⟨h1, ⟨k + 1, ?_⟩, fun _ => h3 (by omega)⟩
      rw [h2]
      push_cast
      ring
    · exact ⟨by omega, ⟨0, by simp⟩, id⟩

/-- What the coefficients keep from the second round on: they alternate in sign, and their weighted sizes add up to `n`. -/
structure EuclidState.Bounded (n : Nat) (e : EuclidState) : Prop where
  falling : e.r1 < e.r0
  signs : e.s0 * e.s1 ≤ 0
  weight : (e.r0 : Int) * |e.s1| + e.r1 * |e.s0| = n

theorem EuclidState.Bounded.round {n : Nat} {e : EuclidState} (h : e.Bounded n) (h1 : e.r1 ≠ 0) : e.round.Bounded n := by
  have hd : (e.r0 : Int) = e.r1 * ((e.r0 / e.r1 : Nat) : Int) + ((e.r0 % e.r1 : Nat) : Int) := by
    exact_mod_cast (Nat.div_add_mod e.r0 e.r1).symm
  have hq : (0 : Int) ≤ ((e.r0 / e.r1 : Nat) : Int) := Int.natCast_nonneg _
  have hw := h.weight
  have hs := h.signs
  refine ⟨Nat.mod_lt _ (Nat.pos_of_ne_zero h1), ?_, ?_⟩
  · simp only [EuclidState.round]
    nlinarith [mul_nonneg hq (mul_self_nonneg e.s1)]
  · have habs : |e.s0 - ((e.r0 / e.r1 : Nat) : Int) * e.s1| = |e.s0| + ((e.r0 / e.r1 : Nat) : Int) * |e.s1| := by
      have e1 : |((e.r0 / e.r1 : Nat) : Int) * e.s1| = ((e.r0 / e.r1 : Nat) : Int) * |e.s1| := by
        rw [abs_mul, abs_of_nonneg hq]
      rw [← e1, sub_eq_add_neg, ← abs_neg (((e.r0 / e.r1 : Nat) : Int) * e.s1)]
      refine abs_add_eq_add_abs_iff _ _ |>.2 ?_
      rcases le_total 0 e.s0 with h0 | h0 <;> rcases le_total 0 e.s1 with h2 | h2
      · rcases eq_or_lt_of_le h0 with h3 | h3
        · right
          exact ⟨h3.ge, by nlinarith [mul_nonneg hq h2]⟩
        · left
          have : e.s1 = 0 := by nlinarith
          exact ⟨h0, by rw [this]; simp⟩
      · left
        exact ⟨h0, by nlinarith [mul_nonneg hq (neg_nonneg.2 h2)]⟩
      · right
        exact ⟨h0, by nlinarith [mul_nonneg hq h2]⟩
      · rcases eq_or_lt_of_le h0 with h3 | h3
        · left
          exact ⟨h3.ge, by nlinarith [mul_nonneg hq (neg_nonneg.2 h2)]⟩
        · right
          have : e.s1 = 0 := by nlinarith
          exact ⟨h0, by rw [this]; simp⟩
    simp only [EuclidState.round]
    rw [habs]
    linear_combination hw - |e.s1| * hd

/-- From a bounded state whose remainder is not yet 0, the loop ends with a coefficient of at most half of `n`. -/
theorem euclidLoop_coeff_bound (n fuel : Nat) (e : EuclidState) (hf : e.r1 < fuel) (h1 : e.r1 ≠ 0) (h : e.Bounded n) :
    2 * |(euclidLoop fuel e).s0| ≤ n := by
  induction fuel generalizing e with
  | zero => omega
  | succ fuel ih =>
    rw [euclidLoop, if_neg h1]
    by_cases h2 : e.round.r1 = 0
    · have hlast : (euclidLoop fuel e.round).s0 = e.s1 := by
        cases fuel with
        | zero => rfl
        | succ fuel => rw [euclidLoop, if_pos h2]; rfl
      rw [hlast]
      have hw := h.weight
      have h3 : (2 : Int) ≤ e.r0 := by
        have := h.falling
        omega
      nlinarith [abs_nonneg e.s1, abs_nonneg e.s0, mul_nonneg (Int.natCast_nonneg e.r1) (abs_nonneg e.s0)]
    · refine ih e.round ?_ h2 (h.round h1)
      have := Nat.mod_lt e.r0 (Nat.pos_of_ne_zero h1)
      simp only [EuclidState.round]
      omega

/-- MODINV of a unit below `n` gives an inverse in `[0, n)` (spec/41_keyderiv.md R78). -/
theorem computeModinv_of_coprime (a n : Nat) (h2 : 2 ≤ n) (h : a < n) (hg : Nat.gcd a n = 1) :
    ∃ d, computeModinv a n = .ok d ∧ d < n ∧ a * d % n = 1 := by
  have ha : a ≠ 0 := by
    rintro rfl
    rw [Nat.gcd_zero_left] at hg
    omega
  obtain ⟨h0, hb⟩ := euclidLoop_spec a n (n + 1) (.start a n) (Nat.lt_succ_self n) (EuclidState.start_good a n)
  have hc : 2 * |(euclidLoop (n + 1) (.start a n)).s0| ≤ n := by
    rw [euclidLoop, if_neg (show (EuclidState.start a n).r1 ≠ 0 by simp only [EuclidState.start]; omega)]
    have hr : (EuclidState.start a n).round = { r0 := n, r1 := a, s0 := 0, s1 := 1, t0 := 1, t1 := 0 } := by
      simp [EuclidState.round, EuclidState.start, Nat.div_eq_of_lt h, Nat.mod_eq_of_lt h]
    rw [hr]
    exact euclidLoop_coeff_bound n n _ h ha ⟨h, by norm_num, by norm_num⟩
  rw [computeModinv, if_neg (by omega), if_neg (by omega)]
  dsimp only
  generalize euclidLoop (n + 1) (.start a n) = e at h0 hb hc
  rw [if_neg (by rw [h0, hg]; simp)]
  obtain ⟨hnn, ⟨k, hk⟩, hlt⟩ := addUntilNonneg_spec e.s0.natAbs n e.s0 (by omega) (by omega)
  have hd : ((addUntilNonneg e.s0.natAbs e.s0 n).toNat : Int) = e.s0 + k * n := by rw [Int.toNat_of_nonneg hnn, hk]
  have habs : e.s0 < n := by
    have := le_abs_self e.s0
    have : (2 : Int) ≤ n := by exact_mod_cast h2
    omega
  refine ⟨_, rfl, by have := hlt habs; omega, ?_⟩
  rw [hg] at hb
  have hmod : (a : Int) * ((addUntilNonneg e.s0.natAbs e.s0 n).toNat : Int) = 1 + n * (a * k - e.t0) := by
    rw [hd]
    push_cast at hb
    linear_combination hb
  have hcast : ((a * (addUntilNonneg e.s0.natAbs e.s0 n).toNat % n : Nat) : Int) = 1 := by
    push_cast
    rw [hmod, Int.add_mul_emod_self_left]
    exact Int.emod_eq_of_lt (by omega) (by omega)
  exact_mod_cast hcast
end Sys2Proof.Machine
end

