-- ==== Sys2Proof/Laws/State.lean ====
section
/-! SUPPORT. One lemma per field per update of State, so that no later proof unfolds a record update.  The operand
registers are read through `State.x`. -/

namespace Sys2Proof.Machine

variable (s : State)

@[simp] theorem State.withTurns_width (rest : List Turn) : (s.withTurns rest).width = s.width := rfl
@[simp] theorem State.withTurns_ieDone (rest : List Turn) : (s.withTurns rest).ieDone = s.ieDone := rfl
@[simp] theorem State.withTurns_ieErr (rest : List Turn) : (s.withTurns rest).ieErr = s.ieErr := rfl
@[simp] theorem State.withTurns_busy (rest : List Turn) : (s.withTurns rest).busy = s.busy := rfl
@[simp] theorem State.withTurns_done (rest : List Turn) : (s.withTurns rest).done = s.done := rfl
@[simp] theorem State.withTurns_err (rest : List Turn) : (s.withTurns rest).err = s.err := rfl
@[simp] theorem State.withTurns_overrun (rest : List Turn) : (s.withTurns rest).overrun = s.overrun := rfl
@[simp] theorem State.withTurns_errcode (rest : List Turn) : (s.withTurns rest).errcode = s.errcode := rfl
@[simp] theorem State.withTurns_jobOp (rest : List Turn) : (s.withTurns rest).jobOp = s.jobOp := rfl
@[simp] theorem State.withTurns_turns (rest : List Turn) : (s.withTurns rest).turns = rest := rfl
@[simp] theorem State.withTurns_response (rest : List Turn) : (s.withTurns rest).response = s.response := rfl
@[simp] theorem State.withTurns_x (rest : List Turn) (reg : OperandReg) : (s.withTurns rest).x reg = s.x reg := by cases reg <;> rfl

@[simp] theorem State.respond_width (resp : Response) : (s.respond resp).width = s.width := rfl
@[simp] theorem State.respond_ieDone (resp : Response) : (s.respond resp).ieDone = s.ieDone := rfl
@[simp] theorem State.respond_ieErr (resp : Response) : (s.respond resp).ieErr = s.ieErr := rfl
@[simp] theorem State.respond_busy (resp : Response) : (s.respond resp).busy = s.busy := rfl
@[simp] theorem State.respond_done (resp : Response) : (s.respond resp).done = s.done := rfl
@[simp] theorem State.respond_err (resp : Response) : (s.respond resp).err = s.err := rfl
@[simp] theorem State.respond_overrun (resp : Response) : (s.respond resp).overrun = s.overrun := rfl
@[simp] theorem State.respond_errcode (resp : Response) : (s.respond resp).errcode = s.errcode := rfl
@[simp] theorem State.respond_jobOp (resp : Response) : (s.respond resp).jobOp = s.jobOp := rfl
@[simp] theorem State.respond_turns (resp : Response) : (s.respond resp).turns = s.turns := rfl
@[simp] theorem State.respond_response (resp : Response) : (s.respond resp).response = some resp := rfl
@[simp] theorem State.respond_x (resp : Response) (reg : OperandReg) : (s.respond resp).x reg = s.x reg := by cases reg <;> rfl

@[simp] theorem State.setOverrun_width : s.setOverrun.width = s.width := rfl
@[simp] theorem State.setOverrun_ieDone : s.setOverrun.ieDone = s.ieDone := rfl
@[simp] theorem State.setOverrun_ieErr : s.setOverrun.ieErr = s.ieErr := rfl
@[simp] theorem State.setOverrun_busy : s.setOverrun.busy = s.busy := rfl
@[simp] theorem State.setOverrun_done : s.setOverrun.done = s.done := rfl
@[simp] theorem State.setOverrun_err : s.setOverrun.err = s.err := rfl
@[simp] theorem State.setOverrun_overrun : s.setOverrun.overrun = true := rfl
@[simp] theorem State.setOverrun_errcode : s.setOverrun.errcode = s.errcode := rfl
@[simp] theorem State.setOverrun_jobOp : s.setOverrun.jobOp = s.jobOp := rfl
@[simp] theorem State.setOverrun_turns : s.setOverrun.turns = s.turns := rfl
@[simp] theorem State.setOverrun_response : s.setOverrun.response = s.response := rfl
@[simp] theorem State.setOverrun_x (reg : OperandReg) : s.setOverrun.x reg = s.x reg := by cases reg <;> rfl

@[simp] theorem State.clearOutcome_width : s.clearOutcome.width = s.width := rfl
@[simp] theorem State.clearOutcome_ieDone : s.clearOutcome.ieDone = s.ieDone := rfl
@[simp] theorem State.clearOutcome_ieErr : s.clearOutcome.ieErr = s.ieErr := rfl
@[simp] theorem State.clearOutcome_busy : s.clearOutcome.busy = s.busy := rfl
@[simp] theorem State.clearOutcome_done : s.clearOutcome.done = false := rfl
@[simp] theorem State.clearOutcome_err : s.clearOutcome.err = false := rfl
@[simp] theorem State.clearOutcome_overrun : s.clearOutcome.overrun = s.overrun := rfl
@[simp] theorem State.clearOutcome_errcode : s.clearOutcome.errcode = 0 := rfl
@[simp] theorem State.clearOutcome_jobOp : s.clearOutcome.jobOp = s.jobOp := rfl
@[simp] theorem State.clearOutcome_turns : s.clearOutcome.turns = s.turns := rfl
@[simp] theorem State.clearOutcome_response : s.clearOutcome.response = s.response := rfl
@[simp] theorem State.clearOutcome_x (reg : OperandReg) : s.clearOutcome.x reg = s.x reg := by cases reg <;> rfl

@[simp] theorem State.setEnables_width (e d : Bool) : (s.setEnables e d).width = s.width := rfl
@[simp] theorem State.setEnables_ieDone (e d : Bool) : (s.setEnables e d).ieDone = d := rfl
@[simp] theorem State.setEnables_ieErr (e d : Bool) : (s.setEnables e d).ieErr = e := rfl
@[simp] theorem State.setEnables_busy (e d : Bool) : (s.setEnables e d).busy = s.busy := rfl
@[simp] theorem State.setEnables_done (e d : Bool) : (s.setEnables e d).done = s.done := rfl
@[simp] theorem State.setEnables_err (e d : Bool) : (s.setEnables e d).err = s.err := rfl
@[simp] theorem State.setEnables_overrun (e d : Bool) : (s.setEnables e d).overrun = s.overrun := rfl
@[simp] theorem State.setEnables_errcode (e d : Bool) : (s.setEnables e d).errcode = s.errcode := rfl
@[simp] theorem State.setEnables_jobOp (e d : Bool) : (s.setEnables e d).jobOp = s.jobOp := rfl
@[simp] theorem State.setEnables_turns (e d : Bool) : (s.setEnables e d).turns = s.turns := rfl
@[simp] theorem State.setEnables_response (e d : Bool) : (s.setEnables e d).response = s.response := rfl
@[simp] theorem State.setEnables_x (e d : Bool) (reg : OperandReg) : (s.setEnables e d).x reg = s.x reg := by cases reg <;> rfl

@[simp] theorem State.clearStrobed_width (o e d : Bool) : (s.clearStrobed o e d).width = s.width := rfl
@[simp] theorem State.clearStrobed_ieDone (o e d : Bool) : (s.clearStrobed o e d).ieDone = s.ieDone := rfl
@[simp] theorem State.clearStrobed_ieErr (o e d : Bool) : (s.clearStrobed o e d).ieErr = s.ieErr := rfl
@[simp] theorem State.clearStrobed_busy (o e d : Bool) : (s.clearStrobed o e d).busy = s.busy := rfl
@[simp] theorem State.clearStrobed_done (o e d : Bool) : (s.clearStrobed o e d).done = (s.done && !d) := rfl
@[simp] theorem State.clearStrobed_err (o e d : Bool) : (s.clearStrobed o e d).err = (s.err && !e) := rfl
@[simp] theorem State.clearStrobed_overrun (o e d : Bool) : (s.clearStrobed o e d).overrun = (s.overrun && !o) := rfl
@[simp] theorem State.clearStrobed_errcode (o e d : Bool) : (s.clearStrobed o e d).errcode = (if e then 0 else s.errcode) := rfl
@[simp] theorem State.clearStrobed_jobOp (o e d : Bool) : (s.clearStrobed o e d).jobOp = s.jobOp := rfl
@[simp] theorem State.clearStrobed_turns (o e d : Bool) : (s.clearStrobed o e d).turns = s.turns := rfl
@[simp] theorem State.clearStrobed_response (o e d : Bool) : (s.clearStrobed o e d).response = s.response := rfl
@[simp] theorem State.clearStrobed_x (o e d : Bool) (reg : OperandReg) : (s.clearStrobed o e d).x reg = s.x reg := by cases reg <;> rfl

@[simp] theorem State.raise_width (e : ErrorCode) : (s.raise e).width = s.width := rfl
@[simp] theorem State.raise_ieDone (e : ErrorCode) : (s.raise e).ieDone = s.ieDone := rfl
@[simp] theorem State.raise_ieErr (e : ErrorCode) : (s.raise e).ieErr = s.ieErr := rfl
@[simp] theorem State.raise_busy (e : ErrorCode) : (s.raise e).busy = false := rfl
@[simp] theorem State.raise_done (e : ErrorCode) : (s.raise e).done = s.done := rfl
@[simp] theorem State.raise_err (e : ErrorCode) : (s.raise e).err = true := rfl
@[simp] theorem State.raise_overrun (e : ErrorCode) : (s.raise e).overrun = s.overrun := rfl
@[simp] theorem State.raise_errcode (e : ErrorCode) : (s.raise e).errcode = e.code := rfl
@[simp] theorem State.raise_jobOp (e : ErrorCode) : (s.raise e).jobOp = s.jobOp := rfl
@[simp] theorem State.raise_turns (e : ErrorCode) : (s.raise e).turns = s.turns := rfl
@[simp] theorem State.raise_response (e : ErrorCode) : (s.raise e).response = s.response := rfl
@[simp] theorem State.raise_x (e : ErrorCode) (reg : OperandReg) : (s.raise e).x reg = s.x reg := by cases reg <;> rfl

@[simp] theorem State.complete_width (v : Nat) : (s.complete v).width = s.width := rfl
@[simp] theorem State.complete_ieDone (v : Nat) : (s.complete v).ieDone = s.ieDone := rfl
@[simp] theorem State.complete_ieErr (v : Nat) : (s.complete v).ieErr = s.ieErr := rfl
@[simp] theorem State.complete_busy (v : Nat) : (s.complete v).busy = false := rfl
@[simp] theorem State.complete_done (v : Nat) : (s.complete v).done = true := rfl
@[simp] theorem State.complete_err (v : Nat) : (s.complete v).err = s.err := rfl
@[simp] theorem State.complete_overrun (v : Nat) : (s.complete v).overrun = s.overrun := rfl
@[simp] theorem State.complete_errcode (v : Nat) : (s.complete v).errcode = s.errcode := rfl
@[simp] theorem State.complete_jobOp (v : Nat) : (s.complete v).jobOp = s.jobOp := rfl
@[simp] theorem State.complete_turns (v : Nat) : (s.complete v).turns = s.turns := rfl
@[simp] theorem State.complete_response (v : Nat) : (s.complete v).response = s.response := rfl
@[simp] theorem State.complete_x_R (v : Nat) : (s.complete v).x .R = v % 2 ^ s.width.opw := by
  simp [State.x, State.complete, State.setX]
@[simp] theorem State.complete_x_A (v : Nat) : (s.complete v).x .A = s.x .A := rfl
@[simp] theorem State.complete_x_B (v : Nat) : (s.complete v).x .B = s.x .B := rfl
@[simp] theorem State.complete_x_N (v : Nat) : (s.complete v).x .N = s.x .N := rfl

@[simp] theorem State.zeroizeOperands_width : s.zeroizeOperands.width = s.width := rfl
@[simp] theorem State.zeroizeOperands_ieDone : s.zeroizeOperands.ieDone = s.ieDone := rfl
@[simp] theorem State.zeroizeOperands_ieErr : s.zeroizeOperands.ieErr = s.ieErr := rfl
@[simp] theorem State.zeroizeOperands_busy : s.zeroizeOperands.busy = s.busy := rfl
@[simp] theorem State.zeroizeOperands_done : s.zeroizeOperands.done = s.done := rfl
@[simp] theorem State.zeroizeOperands_err : s.zeroizeOperands.err = s.err := rfl
@[simp] theorem State.zeroizeOperands_overrun : s.zeroizeOperands.overrun = s.overrun := rfl
@[simp] theorem State.zeroizeOperands_errcode : s.zeroizeOperands.errcode = s.errcode := rfl
@[simp] theorem State.zeroizeOperands_jobOp : s.zeroizeOperands.jobOp = s.jobOp := rfl
@[simp] theorem State.zeroizeOperands_turns : s.zeroizeOperands.turns = s.turns := rfl
@[simp] theorem State.zeroizeOperands_response : s.zeroizeOperands.response = s.response := rfl
@[simp] theorem State.zeroizeOperands_x (reg : OperandReg) : s.zeroizeOperands.x reg = 0 := by cases reg <;> simp [State.x, State.zeroizeOperands]

@[simp] theorem State.toReset_width : s.toReset.width = s.width := rfl
@[simp] theorem State.toReset_ieDone : s.toReset.ieDone = false := rfl
@[simp] theorem State.toReset_ieErr : s.toReset.ieErr = false := rfl
@[simp] theorem State.toReset_busy : s.toReset.busy = false := rfl
@[simp] theorem State.toReset_done : s.toReset.done = false := rfl
@[simp] theorem State.toReset_err : s.toReset.err = false := rfl
@[simp] theorem State.toReset_overrun : s.toReset.overrun = false := rfl
@[simp] theorem State.toReset_errcode : s.toReset.errcode = 0 := rfl
@[simp] theorem State.toReset_jobOp : s.toReset.jobOp = 0 := rfl
@[simp] theorem State.toReset_turns : s.toReset.turns = s.turns := rfl
@[simp] theorem State.toReset_response : s.toReset.response = s.response := rfl
@[simp] theorem State.toReset_x (reg : OperandReg) : s.toReset.x reg = 0 := by cases reg <;> simp [State.x, State.toReset]

/-- An operand register holds a value in `[0, 2^OPW)` (spec/10_state.md R17). -/
theorem State.x_lt (reg : OperandReg) : s.x reg < 2 ^ s.width.opw := by
  cases reg <;> exact BitVec.isLt _

end Sys2Proof.Machine
end

