-- ==== Sys2Proof/Laws/Operands.lean ====
section
/-! SUPPORT. The words of an operand register: reading a word after setting it, and the register as the sum of its words
(spec/10_state.md R21). -/

namespace Sys2Proof.Machine

/-- A legal width is at least 32 bits, so every index below `NW` is a whole word of the register. -/
theorem word_fits (w : Width) {i : Nat} (h : i < w.nw) : 32 * i + 32 ≤ w.opw := by
  unfold Width.opw
  omega

theorem nw_le (w : Width) : w.nw ≤ 64 := by
  have := w.lastWord.isLt
  unfold Width.nw
  omega

theorem opw_le (w : Width) : w.opw ≤ 2048 := by
  have := nw_le w
  unfold Width.opw
  omega

/-- Word `i` as a number: the register divided by `2^(32 i)`, modulo `2^32`. -/
theorem wordOf_toNat {w : Nat} (x : BitVec w) (i : Nat) : (wordOf x i).toNat = x.toNat / 2 ^ (32 * i) % 2 ^ 32 := by
  simp [wordOf, BitVec.extractLsb'_toNat, Nat.shiftRight_eq_div_pow]

/-- The mask of word `i`: the bits from `32 i` up to `32 i + 31`. -/
theorem wordMask_getLsbD (w i k : Nat) :
    (wordMask w i).getLsbD k = (decide (k < w) && (decide (32 * i ≤ k) && decide (k < 32 * i + 32))) := by
  by_cases hk : k < w
  · by_cases h1 : 32 * i ≤ k
    · have h3 : k - 32 * i < w := by omega
      have h4 : (k - 32 * i < 32) ↔ k < 32 * i + 32 := by omega
      simp only [wordMask, BitVec.getLsbD_shiftLeft, BitVec.getLsbD_setWidth, BitVec.getLsbD_allOnes, hk, h1, h3, h4,
        Nat.not_lt.mpr h1]
      simp
    · have h3 : k < 32 * i := by omega
      simp [wordMask, h1, h3]
  · simp [hk, BitVec.getLsbD_of_ge _ k (Nat.le_of_not_lt hk)]

/-- The bits of a register after one of its words is set (R21). -/
theorem setWordOf_getLsbD {w : Nat} (x : BitVec w) (i : Nat) (v : Word) (k : Nat) :
    (setWordOf x i v).getLsbD k =
      (decide (k < w) && (if 32 * i ≤ k ∧ k < 32 * i + 32 then v.getLsbD (k - 32 * i) else x.getLsbD k)) := by
  by_cases hk : k < w
  · by_cases h1 : 32 * i ≤ k
    · have h3 : k - 32 * i < w := by omega
      by_cases h2 : k < 32 * i + 32
      · simp only [setWordOf, BitVec.getLsbD_or, BitVec.getLsbD_and, BitVec.getLsbD_not, BitVec.getLsbD_shiftLeft,
          BitVec.getLsbD_setWidth, wordMask_getLsbD, hk, h1, h2, h3, Nat.not_lt.mpr h1]
        simp
      · have h5 : v.getLsbD (k - 32 * i) = false := BitVec.getLsbD_of_ge v _ (by omega)
        simp only [setWordOf, BitVec.getLsbD_or, BitVec.getLsbD_and, BitVec.getLsbD_not, BitVec.getLsbD_shiftLeft,
          BitVec.getLsbD_setWidth, wordMask_getLsbD, hk, h1, h2, h3, h5, Nat.not_lt.mpr h1]
        simp
    · have h3 : k < 32 * i := by omega
      simp only [setWordOf, BitVec.getLsbD_or, BitVec.getLsbD_and, BitVec.getLsbD_not, BitVec.getLsbD_shiftLeft,
        wordMask_getLsbD, hk, h1, h3]
      simp
  · simp only [BitVec.getLsbD_of_ge _ k (Nat.le_of_not_lt hk), hk, decide_false, Bool.false_and]

theorem wordOf_getLsbD {w : Nat} (x : BitVec w) (i k : Nat) :
    (wordOf x i).getLsbD k = (decide (k < 32) && x.getLsbD (32 * i + k)) := by
  simp only [wordOf, BitVec.getLsbD_extractLsb']

/-- Reading the word just set gives what was written. -/
theorem wordOf_setWordOf_same {w : Nat} (x : BitVec w) (i : Nat) (v : Word) (h : 32 * i + 32 ≤ w) :
    wordOf (setWordOf x i v) i = v := by
  apply BitVec.eq_of_getLsbD_eq
  intro k hk
  have h1 : 32 * i + k < w := by omega
  have h2 : 32 * i ≤ 32 * i + k ∧ 32 * i + k < 32 * i + 32 := by omega
  rw [wordOf_getLsbD, setWordOf_getLsbD, if_pos h2, Nat.add_sub_cancel_left]
  simp only [hk, h1, decide_true, Bool.true_and]

/-- Setting a word leaves every other word alone. -/
theorem wordOf_setWordOf_other {w : Nat} (x : BitVec w) (i j : Nat) (v : Word) (h : j ≠ i) :
    wordOf (setWordOf x i v) j = wordOf x j := by
  apply BitVec.eq_of_getLsbD_eq
  intro k hk
  have hout : ¬ (32 * i ≤ 32 * j + k ∧ 32 * j + k < 32 * i + 32) := by omega
  rw [wordOf_getLsbD, wordOf_getLsbD, setWordOf_getLsbD, if_neg hout]
  by_cases hw : 32 * j + k < w
  · simp only [hw, decide_true, Bool.true_and]
  · simp only [hw, decide_false, Bool.false_and, BitVec.getLsbD_of_ge x _ (Nat.le_of_not_lt hw)]

/-- Two registers with the same words are the same. -/
theorem eq_of_words {w : Width} (x y : BitVec w.opw) (h : ∀ i, i < w.nw → wordOf x i = wordOf y i) : x = y := by
  apply BitVec.eq_of_getLsbD_eq
  intro k hk
  have hi : k / 32 < w.nw := by
    unfold Width.opw at hk
    omega
  have hb := congrArg (fun z : Word => z.getLsbD (k % 32)) (h _ hi)
  have hm : k % 32 < 32 := Nat.mod_lt _ (by decide)
  have hk' : 32 * (k / 32) + k % 32 = k := Nat.div_add_mod k 32
  simpa only [wordOf_getLsbD, hm, hk', decide_true, Bool.true_and] using hb

/-- Where a word of an operand window stands (spec/20_memory.md R39, R40). -/
theorem windowTarget_wordOffset (reg : OperandReg) {i : Nat} (h : i < 64) :
    windowTarget (wordOffset reg i) = .operandWord reg i ∧ (wordOffset reg i).toNat = reg.base + 4 * i := by
  have hn : (wordOffset reg i).toNat = reg.base + 4 * i := by
    cases reg <;> simp only [wordOffset, OperandReg.base, BitVec.toNat_ofNat] <;> omega
  refine ⟨?_, hn⟩
  simp only [windowTarget, hn]
  cases reg
  all_goals
    have hb : OperandReg.base .A = 0x100 ∧ OperandReg.base .B = 0x200 ∧ OperandReg.base .N = 0x300 ∧
      OperandReg.base .R = 0x400 := by decide
    repeat' first | rw [if_neg (by omega)] | rw [if_pos (by omega)]
    congr 1
    omega

/-- An aligned offset whose target is an operand word is that word's offset. -/
theorem eq_wordOffset_of_target {off : Offset} {reg : OperandReg} {i : Nat} (ha : off.toNat % 4 = 0)
    (h : windowTarget off = .operandWord reg i) : i < 64 ∧ off = wordOffset reg i := by
  have key : i < 64 ∧ off.toNat = reg.base + 4 * i := by
    unfold windowTarget at h
    repeat' split at h
    all_goals cases h
    all_goals simp only [OperandReg.base]; omega
  refine ⟨key.1, BitVec.eq_of_toNat_eq ?_⟩
  rw [(windowTarget_wordOffset reg key.1).2, key.2]

end Sys2Proof.Machine
end

