-- ==== Sys2Proof/Laws/Ops.lean ====
section
/-! SUPPORT. What each shared operation can do, said once. -/

namespace Sys2Proof.Machine

variable (s : State)

/-- While BUSY = 1 a command word only sets OVERRUN (spec/40_command.md R66). -/
theorem issueCommand_of_busy (op : Option (BitVec 4)) (h : s.busy = true) : s.issueCommand op = s.setOverrun := by
  simp [State.issueCommand, h]

/-- An illegal word while BUSY = 0 ends at once (spec/40_command.md R65). -/
theorem issueCommand_illegal (h : s.busy = false) : s.issueCommand none = s.clearOutcome.raise .illegalOp := by
  simp [State.issueCommand, h]

/-- A legal command while BUSY = 0 is accepted (spec/40_command.md R64). -/
theorem issueCommand_legal (op : BitVec 4) (h : s.busy = false) :
    s.issueCommand (some op) = { s.clearOutcome with jobOp := op, busy := true } := by
  simp [State.issueCommand, h]

@[simp] theorem issueCommand_turns (op : Option (BitVec 4)) : (s.issueCommand op).turns = s.turns := by
  cases op <;> simp only [State.issueCommand] <;> split <;> rfl

@[simp] theorem issueCommand_response (op : Option (BitVec 4)) : (s.issueCommand op).response = s.response := by
  cases op <;> simp only [State.issueCommand] <;> split <;> rfl

@[simp] theorem issueCommand_width (op : Option (BitVec 4)) : (s.issueCommand op).width = s.width := by
  cases op <;> simp only [State.issueCommand] <;> split <;> rfl

/-- Issuing a command changes no operand register (spec/40_command.md R64). -/
@[simp] theorem issueCommand_x (op : Option (BitVec 4)) (reg : OperandReg) : (s.issueCommand op).x reg = s.x reg := by
  cases op <;> cases reg <;> simp only [State.issueCommand] <;> split <;> rfl

@[simp] theorem finish_ok (v : Nat) : s.finish (.ok v) = s.complete v := rfl

@[simp] theorem finish_err (e : ErrorCode) : s.finish (.err e) = s.raise e := rfl

/-- Both ways of ending a job clear BUSY. -/
@[simp] theorem finish_busy (res : JobResult) : (s.finish res).busy = false := by cases res <;> rfl

@[simp] theorem finish_turns (res : JobResult) : (s.finish res).turns = s.turns := by cases res <;> rfl

@[simp] theorem finish_width (res : JobResult) : (s.finish res).width = s.width := by cases res <;> rfl

/-- Ending a job changes no register but R (spec/40_command.md R69). -/
theorem finish_x (res : JobResult) (reg : OperandReg) (h : reg ≠ .R) : (s.finish res).x reg = s.x reg := by
  cases res <;> cases reg <;> first | rfl | exact absurd rfl h

/-- A host write to an operand window ends in one of three ways (spec/20_memory.md R46): ignored, OVERRUN, or the word
is set. -/
theorem operandWrite_cases (reg : OperandReg) (i : Nat) (v : Word) :
    ((reg = .R ∨ s.width.nw ≤ i) ∧ s.operandWrite reg i v = s) ∨
    (reg ≠ .R ∧ i < s.width.nw ∧ s.busy = true ∧ s.operandWrite reg i v = s.setOverrun) ∨
    (reg ≠ .R ∧ i < s.width.nw ∧ s.busy = false ∧ s.operandWrite reg i v = s.setWord reg i v) := by
  by_cases hi : i < s.width.nw <;> cases hb : s.busy <;> cases reg <;>
    simp [State.operandWrite, hi, hb, State.setWord] <;> omega

@[simp] theorem setWord_width (reg : OperandReg) (i : Nat) (v : Word) : (s.setWord reg i v).width = s.width := by
  cases reg <;> rfl

@[simp] theorem setWord_ieDone (reg : OperandReg) (i : Nat) (v : Word) : (s.setWord reg i v).ieDone = s.ieDone := by
  cases reg <;> rfl

@[simp] theorem setWord_ieErr (reg : OperandReg) (i : Nat) (v : Word) : (s.setWord reg i v).ieErr = s.ieErr := by
  cases reg <;> rfl

@[simp] theorem setWord_busy (reg : OperandReg) (i : Nat) (v : Word) : (s.setWord reg i v).busy = s.busy := by
  cases reg <;> rfl

@[simp] theorem setWord_done (reg : OperandReg) (i : Nat) (v : Word) : (s.setWord reg i v).done = s.done := by
  cases reg <;> rfl

@[simp] theorem setWord_err (reg : OperandReg) (i : Nat) (v : Word) : (s.setWord reg i v).err = s.err := by
  cases reg <;> rfl

@[simp] theorem setWord_overrun (reg : OperandReg) (i : Nat) (v : Word) : (s.setWord reg i v).overrun = s.overrun := by
  cases reg <;> rfl

@[simp] theorem setWord_errcode (reg : OperandReg) (i : Nat) (v : Word) : (s.setWord reg i v).errcode = s.errcode := by
  cases reg <;> rfl

@[simp] theorem setWord_jobOp (reg : OperandReg) (i : Nat) (v : Word) : (s.setWord reg i v).jobOp = s.jobOp := by
  cases reg <;> rfl

@[simp] theorem setWord_turns (reg : OperandReg) (i : Nat) (v : Word) : (s.setWord reg i v).turns = s.turns := by
  cases reg <;> rfl

@[simp] theorem setWord_response (reg : OperandReg) (i : Nat) (v : Word) : (s.setWord reg i v).response = s.response := by
  cases reg <;> rfl

/-- Setting a word of one register leaves the others alone. -/
theorem setWord_x_other (reg other : OperandReg) (i : Nat) (v : Word) (h : other ≠ reg) :
    (s.setWord reg i v).x other = s.x other := by
  cases reg <;> cases other <;> first | rfl | exact absurd rfl h

end Sys2Proof.Machine
end

