-- ==== Sys2Proof/Laws/Bus.lean ====
section
/-! SUPPORT. What writing a command, control or status word can do, and where the command registers stand in the window. -/

namespace Sys2Proof.Machine

/-- The window targets of the three command registers (spec/20_memory.md R39). -/
theorem windowTarget_cmd : windowTarget cmdOffset = .cmd := by decide

theorem windowTarget_status : windowTarget statusOffset = .status := by decide

theorem windowTarget_ctrl : windowTarget ctrlOffset = .ctrl := by decide

/-- Each command register is the only offset with its target. -/
theorem eq_cmdOffset {off : Offset} (h : windowTarget off = .cmd) : off = cmdOffset := by
  unfold windowTarget at h
  repeat' split at h
  all_goals cases h
  exact BitVec.eq_of_toNat_eq ‹_›

theorem eq_statusOffset {off : Offset} (h : windowTarget off = .status) : off = statusOffset := by
  unfold windowTarget at h
  repeat' split at h
  all_goals cases h
  exact BitVec.eq_of_toNat_eq ‹_›

theorem eq_ctrlOffset {off : Offset} (h : windowTarget off = .ctrl) : off = ctrlOffset := by
  unfold windowTarget at h
  repeat' split at h
  all_goals cases h
  exact BitVec.eq_of_toNat_eq ‹_›

/-- A CMD word is one of the four legal words, and then its command is issued, or it is illegal (spec/40_command.md R64). -/
theorem writeCmd_cases (v : Word) (s : State) :
    (∃ i op, decodeCmd v = .ok i ∧ commandOp i = some op ∧ (1 ≤ op.toNat ∧ op.toNat ≤ 4) ∧
      v = BitVec.ofNat 32 op.toNat ∧ writeCmd v s = .next (s.issueCommand (some op))) ∨
    (∃ e, decodeCmd v = .error e ∧ writeCmd v s = .next (s.issueCommand none)) := by
  by_cases hr : v.extractLsb' 4 28 = 0#28
  · have hv : v = BitVec.ofNat 32 (v.extractLsb' 0 4).toNat := by
      apply BitVec.eq_of_toNat_eq
      have h1 := congrArg BitVec.toNat hr
      simp only [BitVec.extractLsb'_toNat, BitVec.toNat_ofNat, Nat.shiftRight_eq_div_pow] at h1 ⊢
      have := v.isLt
      norm_num at *
      omega
    by_cases h1 : v.extractLsb' 0 4 = opModexp
    · have hd : decodeCmd v = .ok .modexp := by simp [decodeCmd, hr, h1]
      exact .inl ⟨.modexp, opModexp, hd, rfl, by decide, h1 ▸ hv, by rw [writeCmd, hd]; rfl⟩
    by_cases h2 : v.extractLsb' 0 4 = opModmul
    · have hd : decodeCmd v = .ok .modmul := by
        simp [decodeCmd, hr, h2, show opModmul ≠ opModexp by decide]
      exact .inl ⟨.modmul, opModmul, hd, rfl, by decide, h2 ▸ hv, by rw [writeCmd, hd]; rfl⟩
    by_cases h3 : v.extractLsb' 0 4 = opGcd
    · have hd : decodeCmd v = .ok .gcd := by
        simp [decodeCmd, hr, h3, show opGcd ≠ opModexp by decide, show opGcd ≠ opModmul by decide]
      exact .inl ⟨.gcd, opGcd, hd, rfl, by decide, h3 ▸ hv, by rw [writeCmd, hd]; rfl⟩
    by_cases h4 : v.extractLsb' 0 4 = opModinv
    · have hd : decodeCmd v = .ok .modinv := by
        simp [decodeCmd, hr, h4, show opModinv ≠ opModexp by decide, show opModinv ≠ opModmul by decide,
          show opModinv ≠ opGcd by decide]
      exact .inl ⟨.modinv, opModinv, hd, rfl, by decide, h4 ▸ hv, by rw [writeCmd, hd]; rfl⟩
    · have hd : decodeCmd v = .error (.reservedOpcode (v.extractLsb' 0 4)) := by
        simp [decodeCmd, hr, h1, h2, h3, h4]
      exact .inr ⟨_, hd, by rw [writeCmd, hd]⟩
  · have hd : decodeCmd v = .error (.reservedBits (v.extractLsb' 4 28)) := by
      rw [decodeCmd, if_pos hr]
    exact .inr ⟨_, hd, by rw [writeCmd, hd]⟩

/-- A STATUS word strobes (spec/43_control.md R93). -/
theorem exec_decodeStatus (v : Word) (s : State) :
    exec (decodeStatus v) s = .next (s.clearStrobed (v.getLsbD 3) (v.getLsbD 2) (v.getLsbD 1)) := rfl

/-- A write that decodes to an instruction is that instruction's execution, at an aligned offset. -/
theorem memWrite_of_decode {off : Offset} {v : Word} {i : Instr} (s : State) (h : decode off v = .ok i) :
    memWrite off v s = exec i s ∧ off.toNat % 4 = 0 := by
  unfold decode at h
  split at h
  · next he =>
    subst he
    exact ⟨by simp only [memWrite, windowTarget_cmd, writeCmd, h], by decide⟩
  · split at h
    · next he =>
      subst he
      cases h
      exact ⟨by simp only [memWrite, windowTarget_ctrl], by decide⟩
    · split at h
      · next he =>
        subst he
        cases h
        exact ⟨by simp only [memWrite, windowTarget_status], by decide⟩
      · cases h

/-- A CTRL word is a SOFT_RESET, a ZEROIZE or a SETIE (spec/43_control.md R90). -/
theorem exec_decodeCtrl (v : Word) (s : State) :
    (v.getLsbD 31 = true ∧ exec (decodeCtrl v) s = .next s.toReset) ∨
    (v.getLsbD 31 = false ∧ v.getLsbD 30 = true ∧ s.busy = true ∧
      exec (decodeCtrl v) s = .next (s.setEnables (v.getLsbD 1) (v.getLsbD 0)).setOverrun) ∨
    (v.getLsbD 31 = false ∧ v.getLsbD 30 = true ∧ s.busy = false ∧
      exec (decodeCtrl v) s = .next (s.setEnables (v.getLsbD 1) (v.getLsbD 0)).zeroizeOperands) ∨
    (v.getLsbD 31 = false ∧ v.getLsbD 30 = false ∧
      exec (decodeCtrl v) s = .next (s.setEnables (v.getLsbD 1) (v.getLsbD 0))) := by
  unfold decodeCtrl
  cases v.getLsbD 31 <;> cases v.getLsbD 30 <;> cases hb : s.busy <;>
    simp [exec, execSoftReset, execZeroize, execSetie, hb]

end Sys2Proof.Machine
end

