-- ==== Sys2Proof/Laws/Decode.lean ====
section
/-! SUPPORT. The bits of the action words, for proofs about decoding and encoding (spec/30_encoding.md R55, R56). -/

namespace Sys2Proof

/-- The bits of a SOFT_RESET word. -/
theorem encode_softReset_getLsbD (ignored : BitVec 31) (k : Nat) :
    (encode (.softReset ignored)).getLsbD k = if k < 31 then ignored.getLsbD k else decide (k = 31) := by
  change (1#1 ++ ignored).getLsbD k = _
  rw [BitVec.getLsbD_append]
  split
  · rfl
  · next h =>
    by_cases hk : k = 31
    · subst hk; rfl
    · rw [decide_eq_false hk]
      exact BitVec.getLsbD_of_ge _ _ (by omega)

/-- The bits of a word with a top bit pair, 28 reserved bits and two flags. -/
theorem ctrlWord_getLsbD (top1 top0 : BitVec 1) (rsvd : BitVec 28) (ieErr ieDone : Bool) (k : Nat) :
    (top1 ++ top0 ++ rsvd ++ BitVec.ofBool ieErr ++ BitVec.ofBool ieDone).getLsbD k =
      if k = 0 then ieDone else if k = 1 then ieErr else if k < 30 then rsvd.getLsbD (k - 2)
      else if k = 30 then top0.getLsbD 0 else top1.getLsbD (k - 31) := by
  simp only [BitVec.getLsbD_append]
  by_cases h0 : k = 0
  · subst h0; simp
  by_cases h1 : k = 1
  · subst h1; simp
  have e1 : k - 1 - 1 = k - 2 := by omega
  have e2 : k - 2 - 28 = k - 30 := by omega
  have e3 : k - 30 - 1 = k - 31 := by omega
  rw [if_neg (by omega), if_neg (by omega), if_neg h0, if_neg h1, e1, e2, e3]
  by_cases h2 : k < 30
  · rw [if_pos (by omega), if_pos h2]
  · rw [if_neg (by omega), if_neg h2]
    by_cases h3 : k = 30
    · subst h3; rfl
    · rw [if_neg (by omega), if_neg h3]

/-- The bits of a ZEROIZE word. -/
theorem encode_zeroize_getLsbD (rsvd : BitVec 28) (ieErr ieDone : Bool) (k : Nat) :
    (encode (.zeroize rsvd ieErr ieDone)).getLsbD k =
      if k = 0 then ieDone else if k = 1 then ieErr else if k < 30 then rsvd.getLsbD (k - 2) else decide (k = 30) := by
  refine (ctrlWord_getLsbD 0#1 1#1 rsvd ieErr ieDone k).trans ?_
  congr 3
  by_cases h : k = 30 <;> simp [h]

/-- The bits of a SETIE word. -/
theorem encode_setie_getLsbD (rsvd : BitVec 28) (ieErr ieDone : Bool) (k : Nat) :
    (encode (.setie rsvd ieErr ieDone)).getLsbD k =
      if k = 0 then ieDone else if k = 1 then ieErr else if k < 30 then rsvd.getLsbD (k - 2) else false := by
  refine (ctrlWord_getLsbD 0#1 0#1 rsvd ieErr ieDone k).trans ?_
  congr 3
  by_cases h : k = 30 <;> simp [h]

/-- The bits of a CLRST word. -/
theorem encode_clrst_getLsbD (ignored : BitVec 28) (overrun err done busy : Bool) (k : Nat) :
    (encode (.clrst ignored overrun err done busy)).getLsbD k =
      if k = 0 then busy else if k = 1 then done else if k = 2 then err else if k = 3 then overrun
      else ignored.getLsbD (k - 4) := by
  change (ignored ++ BitVec.ofBool overrun ++ BitVec.ofBool err ++ BitVec.ofBool done ++ BitVec.ofBool busy).getLsbD k = _
  simp only [BitVec.getLsbD_append]
  match k with
  | 0 => simp
  | 1 => simp
  | 2 => simp
  | 3 => simp
  | k + 4 => simp

end Sys2Proof
end

