-- ==== Sys2Proof/Laws/PerInstr.lean ====
section
/-! SUPPORT. A fact about every instruction as syntax: its word, at its register, fits its own row of spec/opcode_table.json
(spec/30_encoding.md R59). -/

namespace Sys2Proof.Laws.TableRow

/-- The instruction's row stands in the table, for the register its word is written to, and its word fits the row. -/
def Statement (i : Instr) : Prop :=
  ∃ row ∈ opcodeTable, row.mnemonic = i.mnemonic ∧ row.off = i.offset ∧ row.fits (encode i) = true

/-- Row `k` of the table proves the statement. -/
theorem of_row (i : Instr) (k : Nat) (row : OpcodeRow) (hr : opcodeTable[k]? = some row)
    (hm : row.mnemonic = i.mnemonic) (ho : row.off = i.offset) (hf : encode i &&& row.mask = row.pattern) : Statement i :=
  ⟨row, List.mem_of_getElem? hr, hm, ho, by rw [OpcodeRow.fits, hf]; exact beq_self_eq_true _⟩

theorem modexp : Statement .modexp := of_row _ 0 _ rfl rfl rfl (by decide)

theorem modmul : Statement .modmul := of_row _ 1 _ rfl rfl rfl (by decide)

theorem gcd : Statement .gcd := of_row _ 2 _ rfl rfl rfl (by decide)

theorem modinv : Statement .modinv := of_row _ 3 _ rfl rfl rfl (by decide)

theorem softReset (ignored : BitVec 31) : Statement (.softReset ignored) :=
  of_row _ 4 _ rfl rfl rfl (by
    change (1#1 ++ ignored) &&& (1#1 ++ 0#31) = 1#1 ++ 0#31
    rw [BitVec.and_append, BitVec.and_zero, BitVec.and_self])

theorem zeroize (rsvd : BitVec 28) (ieErr ieDone : Bool) : Statement (.zeroize rsvd ieErr ieDone) :=
  of_row _ 5 _ rfl rfl rfl (by
    change (0#1 ++ 1#1 ++ rsvd ++ BitVec.ofBool ieErr ++ BitVec.ofBool ieDone) &&& (1#1 ++ 1#1 ++ 0#28 ++ 0#1 ++ 0#1) =
      0#1 ++ 1#1 ++ 0#28 ++ 0#1 ++ 0#1
    simp only [BitVec.and_append, BitVec.and_zero]
    rfl)

theorem setie (rsvd : BitVec 28) (ieErr ieDone : Bool) : Statement (.setie rsvd ieErr ieDone) :=
  of_row _ 6 _ rfl rfl rfl (by
    change (0#1 ++ 0#1 ++ rsvd ++ BitVec.ofBool ieErr ++ BitVec.ofBool ieDone) &&& (1#1 ++ 1#1 ++ 0#28 ++ 0#1 ++ 0#1) =
      0#1 ++ 0#1 ++ 0#28 ++ 0#1 ++ 0#1
    simp only [BitVec.and_append, BitVec.and_zero]
    rfl)

theorem clrst (ignored : BitVec 28) (overrun err done busy : Bool) : Statement (.clrst ignored overrun err done busy) :=
  of_row _ 7 _ rfl rfl rfl BitVec.and_zero

end Sys2Proof.Laws.TableRow
end

