-- ==== Sys2Proof/Laws/Step.lean ====
section
/-! SUPPORT. What one step can do, said once: `step_cases`.  Claims about steps cite it instead of unfolding the step. -/

namespace Sys2Proof.Machine

/-- The state in which a due host access is performed: its turn is taken off, the access answered with `resp`. -/
def State.answered (s : State) (resp : Response) : State := (s.withTurns s.turns.tail).respond resp

@[simp] theorem State.answered_width (s : State) (resp : Response) : (s.answered resp).width = s.width := rfl

@[simp] theorem State.answered_ieDone (s : State) (resp : Response) : (s.answered resp).ieDone = s.ieDone := rfl

@[simp] theorem State.answered_ieErr (s : State) (resp : Response) : (s.answered resp).ieErr = s.ieErr := rfl

@[simp] theorem State.answered_busy (s : State) (resp : Response) : (s.answered resp).busy = s.busy := rfl

@[simp] theorem State.answered_done (s : State) (resp : Response) : (s.answered resp).done = s.done := rfl

@[simp] theorem State.answered_err (s : State) (resp : Response) : (s.answered resp).err = s.err := rfl

@[simp] theorem State.answered_overrun (s : State) (resp : Response) : (s.answered resp).overrun = s.overrun := rfl

@[simp] theorem State.answered_errcode (s : State) (resp : Response) : (s.answered resp).errcode = s.errcode := rfl

@[simp] theorem State.answered_jobOp (s : State) (resp : Response) : (s.answered resp).jobOp = s.jobOp := rfl

@[simp] theorem State.answered_turns (s : State) (resp : Response) : (s.answered resp).turns = s.turns.tail := rfl

@[simp] theorem State.answered_response (s : State) (resp : Response) : (s.answered resp).response = some resp := rfl

@[simp] theorem State.answered_x (s : State) (resp : Response) (reg : OperandReg) : (s.answered resp).x reg = s.x reg := by
  cases reg <;> rfl

/-- The ways a step can answer a next state: one for each transition of spec/00_scope.md R14 and each effect of a host
write (spec/20_memory.md R46). -/
inductive StepCase (s : State) : State → Prop where
  /-- The completion step (spec/40_command.md R69). -/
  | engine (res : JobResult) : s.engineDue = true → s.busy = true → s.jobResult = some res →
      StepCase s ((s.withTurns s.turns.tail).finish res)
  /-- A hardware reset (spec/70_reset_and_hazards.md R109). -/
  | reset : s.resetDue = true → StepCase s (s.withTurns s.turns.tail).toReset
  /-- A refused access (spec/20_memory.md R43). -/
  | refused (t : Transfer) : s.turns.head? = some (.host t) → t.wellFormed = false →
      StepCase s (s.answered (refusedResponse t))
  /-- A read (spec/20_memory.md R45). -/
  | read (off : Offset) : s.turns.head? = some (.host (.readWord off)) → off.toNat % 4 = 0 →
      StepCase s (s.answered (.data (memRead off (s.withTurns s.turns.tail))))
  /-- A legal command word (spec/40_command.md R64). -/
  | command (v : Word) (i : Instr) (op : BitVec 4) : s.writeDue cmdOffset v → decodeCmd v = .ok i → commandOp i = some op →
      1 ≤ op.toNat ∧ op.toNat ≤ 4 → v = BitVec.ofNat 32 op.toNat →
      StepCase s ((s.answered .written).issueCommand (some op))
  /-- An illegal command word (spec/40_command.md R65). -/
  | illegal (v : Word) (e : DecodeError) : s.writeDue cmdOffset v → decodeCmd v = .error e →
      StepCase s ((s.answered .written).issueCommand none)
  /-- A STATUS write (spec/43_control.md R93). -/
  | status (v : Word) : s.writeDue statusOffset v →
      StepCase s ((s.answered .written).clearStrobed (v.getLsbD 3) (v.getLsbD 2) (v.getLsbD 1))
  /-- SOFT_RESET (spec/43_control.md R92). -/
  | softReset : s.softResetDue → StepCase s (s.answered .written).toReset
  /-- ZEROIZE refused because BUSY = 1 (spec/40_command.md R66). -/
  | zeroizeBusy (e d : Bool) : s.zeroizeDue → s.busy = true →
      StepCase s ((s.answered .written).setEnables e d).setOverrun
  /-- ZEROIZE (spec/43_control.md R91). -/
  | zeroize (e d : Bool) : s.zeroizeDue → s.busy = false →
      StepCase s ((s.answered .written).setEnables e d).zeroizeOperands
  /-- SETIE (spec/43_control.md R90). -/
  | setie (v : Word) : s.writeDue ctrlOffset v → v.getLsbD 31 = false → v.getLsbD 30 = false →
      StepCase s ((s.answered .written).setEnables (v.getLsbD 1) (v.getLsbD 0))
  /-- A write to an operand word while BUSY = 1 (spec/40_command.md R66). -/
  | operandBusy (reg : OperandReg) (i : Nat) (v : Word) : s.writeDue (wordOffset reg i) v → reg ≠ .R →
      i < s.width.nw → s.busy = true → StepCase s (s.answered .written).setOverrun
  /-- A write to an operand word while BUSY = 0 (spec/20_memory.md R46). -/
  | operand (reg : OperandReg) (i : Nat) (v : Word) : s.writeDue (wordOffset reg i) v → reg ≠ .R →
      i < s.width.nw → s.busy = false → StepCase s ((s.answered .written).setWord reg i v)
  /-- A write that is ignored (spec/20_memory.md R40, R41, R46). -/
  | ignored (off : Offset) (v : Word) : s.writeDue off v → off ≠ cmdOffset → off ≠ statusOffset → off ≠ ctrlOffset →
      (∀ reg i, reg ≠ OperandReg.R → i < s.width.nw → off ≠ wordOffset reg i) → StepCase s (s.answered .written)

/-- The completion step answers a next state only for a job in flight with a result. -/
theorem engineStep_cases {s t : State} (h : engineStep s = .next t) :
    s.busy = true ∧ ∃ res, s.jobResult = some res ∧ t = s.finish res := by
  unfold engineStep at h
  split at h
  · next hb =>
    split at h
    · next res hr => exact ⟨hb, res, hr, by cases h; rfl⟩
    · cases h
  · cases h

/-- An accepted transfer is a 32-bit one at a multiple of 4. -/
theorem wellFormed_iff (t : Transfer) : t.wellFormed = true ↔ t.size = .word ∧ t.off.toNat % 4 = 0 := by
  simp [Transfer.wellFormed, Transfer.sizeOk, Transfer.aligned]

/-- What a step answers is one of the cases above. -/
theorem step_cases {s t : State} (h : step s = .next t) : StepCase s t := by
  unfold step takeTurn at h
  split at h
  · next ht =>
    split at h
    · obtain ⟨hb, res, hr, rfl⟩ := engineStep_cases h
      have : s = s.withTurns s.turns.tail := by rw [ht]; cases s; cases ht; rfl
      rw [this]
      exact this ▸ .engine res (by simp [State.engineDue, ht]) hb hr
    · cases h
  · next tr rest ht =>
    have hr : s.withTurns rest = s.withTurns s.turns.tail := by rw [ht]; rfl
    rw [hr] at h
    unfold hostAccess at h
    split at h
    · next hw =>
      obtain ⟨hs, ha⟩ := (wellFormed_iff tr).1 hw
      obtain ⟨off, size, dir⟩ := tr
      cases hs
      split at h
      · next hd =>
        cases hd
        cases h
        exact .read off (by rw [ht]; rfl) ha
      · next v hd =>
        cases hd
        have hd : s.writeDue off v := by unfold State.writeDue; rw [ht]; rfl
        change memWrite off v (s.answered .written) = .next t at h
        unfold memWrite at h
        split at h
        · next hx =>
          cases h
          exact .ignored off v hd (by rintro rfl; cases hx) (by rintro rfl; cases hx) (by rintro rfl; cases hx)
            (by rintro reg i - hi rfl
                rw [(windowTarget_wordOffset reg (Nat.lt_of_lt_of_le hi (nw_le _))).1] at hx; cases hx)
        · next hx =>
          cases h
          exact .ignored off v hd (by rintro rfl; cases hx) (by rintro rfl; cases hx) (by rintro rfl; cases hx)
            (by rintro reg i - hi rfl
                rw [(windowTarget_wordOffset reg (Nat.lt_of_lt_of_le hi (nw_le _))).1] at hx; cases hx)
        · next hx =>
          cases eq_cmdOffset hx
          rcases writeCmd_cases v (s.answered .written) with ⟨i, op, h1, h2, h3, h4, h5⟩ | ⟨e, h1, h2⟩
          · rw [h5] at h
            cases h
            exact .command v i op hd h1 h2 h3 h4
          · rw [h2] at h
            cases h
            exact .illegal v e hd h1
        · next hx =>
          cases eq_statusOffset hx
          rw [exec_decodeStatus] at h
          cases h
          exact .status v hd
        · next hx =>
          cases eq_ctrlOffset hx
          rcases exec_decodeCtrl v (s.answered .written) with
            ⟨h1, h2⟩ | ⟨h1, h2, h3, h4⟩ | ⟨h1, h2, h3, h4⟩ | ⟨h1, h2, h3⟩
          · rw [h2] at h
            cases h
            exact .softReset ⟨v, hd, h1⟩
          · rw [h4] at h
            cases h
            exact .zeroizeBusy _ _ ⟨v, hd, h1, h2⟩ h3
          · rw [h4] at h
            cases h
            exact .zeroize _ _ ⟨v, hd, h1, h2⟩ h3
          · rw [h3] at h
            cases h
            exact .setie v hd h1 h2
        · next reg i hx =>
          obtain ⟨hi, rfl⟩ := eq_wordOffset_of_target ha hx
          cases h
          rcases operandWrite_cases (s.answered .written) reg i v with ⟨h1, h2⟩ | ⟨h1, h2, h3, h4⟩ | ⟨h1, h2, h3, h4⟩
          · rw [h2]
            refine .ignored (wordOffset reg i) v hd ?_ ?_ ?_ ?_
            · intro he; rw [he, windowTarget_cmd] at hx; cases hx
            · intro he; rw [he, windowTarget_status] at hx; cases hx
            · intro he; rw [he, windowTarget_ctrl] at hx; cases hx
            · intro reg' i' hr' hi' he
              rw [he, (windowTarget_wordOffset reg' (Nat.lt_of_lt_of_le hi' (nw_le _))).1] at hx
              cases hx
              rcases h1 with h1 | h1
              · exact hr' h1
              · exact absurd hi' (Nat.not_lt.2 h1)
          · rw [h4]
            exact .operandBusy reg i v hd h1 h2 h3
          · rw [h4]
            exact .operand reg i v hd h1 h2 h3
        · next hx =>
          cases h
          exact .ignored off v hd (by rintro rfl; cases hx) (by rintro rfl; cases hx) (by rintro rfl; cases hx)
            (by rintro reg i - hi rfl
                rw [(windowTarget_wordOffset reg (Nat.lt_of_lt_of_le hi (nw_le _))).1] at hx; cases hx)
    · next hw =>
      cases h
      exact .refused tr (by rw [ht]; rfl) (by simpa using hw)
  · next rest ht =>
    have hr : s.withTurns rest = s.withTurns s.turns.tail := by rw [ht]; rfl
    rw [hr] at h
    obtain ⟨hb, res, hr, rfl⟩ := engineStep_cases h
    exact .engine res (by simp [State.engineDue, ht]) hb hr
  · next rest ht =>
    have hr : s.withTurns rest = s.withTurns s.turns.tail := by rw [ht]; rfl
    rw [hr] at h
    cases h
    exact .reset (by simp [State.resetDue, ht])

/-! ### Taking a due turn, by what is due -/

/-- A due 32-bit write at a multiple of 4 is performed (spec/20_memory.md R46). -/
theorem step_write {s : State} {off : Offset} {v : Word} {rest : List Turn}
    (ht : s.turns = .host (.writeWord off v) :: rest) (ha : off.toNat % 4 = 0) :
    step s = memWrite off v { s with turns := rest, response := some .written } := by
  have hw : (Transfer.writeWord off v).wellFormed = true := (wellFormed_iff _).2 ⟨rfl, ha⟩
  simp only [step, takeTurn, ht, hostAccess, hw, if_true]
  rfl

/-- A due 32-bit read at a multiple of 4 is answered (spec/20_memory.md R45). -/
theorem step_read {s : State} {off : Offset} {rest : List Turn}
    (ht : s.turns = .host (.readWord off) :: rest) (ha : off.toNat % 4 = 0) :
    step s = .next { s with turns := rest, response := some (.data (memRead off s)) } := by
  have hw : (Transfer.readWord off).wellFormed = true := (wellFormed_iff _).2 ⟨rfl, ha⟩
  simp only [step, takeTurn, ht, hostAccess, hw, if_true]
  rfl

/-! ### At most one turn is due -/

/-- While the engine's turn is due, no reset and no write is. -/
theorem engineDue_excludes {s : State} (h : s.engineDue = true) :
    s.resetDue = false ∧ ∀ off v, ¬ s.writeDue off v := by
  unfold State.engineDue at h
  unfold State.resetDue State.writeDue
  rcases hh : s.turns with _ | ⟨t, ts⟩
  · simp
  · rw [hh] at h
    cases t <;> simp at h ⊢

/-- While a reset is due, no engine turn and no write is. -/
theorem resetDue_excludes {s : State} (h : s.resetDue = true) :
    s.engineDue = false ∧ ∀ off v, ¬ s.writeDue off v := by
  unfold State.resetDue at h
  unfold State.engineDue State.writeDue
  rcases hh : s.turns with _ | ⟨t, ts⟩
  · rw [hh] at h
    simp at h
  · rw [hh] at h
    cases t <;> simp at h ⊢

/-- While a host access is due, nothing else is. -/
theorem hostDue_excludes {s : State} {t : Transfer} (h : s.turns.head? = some (.host t)) :
    s.engineDue = false ∧ s.resetDue = false ∧ ∀ off v, s.writeDue off v → t = .writeWord off v := by
  unfold State.resetDue State.engineDue State.writeDue
  rcases hh : s.turns with _ | ⟨t', ts⟩
  · rw [hh] at h
    simp at h
  · rw [hh] at h
    simp at h
    subst h
    simp

/-- The due write is unique. -/
theorem writeDue_iff {s : State} {off : Offset} {v : Word} (h : s.writeDue off v) (off' : Offset) (v' : Word) :
    s.writeDue off' v' ↔ off' = off ∧ v' = v := by
  constructor
  · intro h'
    have := (hostDue_excludes h).2.2 off' v' h'
    simp only [Transfer.writeWord, Transfer.mk.injEq, Direction.write.injEq, true_and] at this
    exact ⟨this.1.symm, this.2.symm⟩
  · rintro ⟨rfl, rfl⟩
    exact h

end Sys2Proof.Machine
end

