-- ==== Sys2Proof/Tests/Slice0.lean ====
section
/-! SUPPORT. Tests on small states, their expected values taken from spec/95_test_vectors.md or worked out by hand from the
rules, and for each statement with hypotheses a state that meets them all. -/

namespace Sys2Proof.Tests

open Sys2Proof.Machine

/-! ### Helpers -/

/-- The reset state of the reference configuration with the operands loaded. -/
def loaded (a b n : Nat) : State :=
  { State.resetOf Width.reference with a := BitVec.ofNat _ a, b := BitVec.ofNat _ b, n := BitVec.ofNat _ n }

/-- `loaded` with STATUS and CTRL set. -/
def flagged (errcode : BitVec 4) (overrun err done busy ieErr ieDone : Bool) : State :=
  { loaded 65 17 3233 with
    r := 2790, jobOp := 1, errcode := errcode, overrun := overrun, err := err, done := done, busy := busy, ieErr := ieErr,
    ieDone := ieDone }

/-- The same state with one turn due. -/
def State.due (s : State) (turn : Turn) : State := { s with turns := [turn] }

/-- The next state, or the given one where there is none. -/
def nextOf (s : State) (o : Host.Outcome State Fault Refusal) : State :=
  match o with
  | .next t => t
  | .fault _ => s
  | .refused _ => s

/-- There is a next state. -/
def isNext (o : Host.Outcome State Fault Refusal) : Bool :=
  match o with
  | .next _ => true
  | .fault _ => false
  | .refused _ => false

theorem eq_next (s : State) (o : Host.Outcome State Fault Refusal) (h : isNext o = true) : o = .next (nextOf s o) := by
  cases o
  · rfl
  · cases h
  · cases h

/-- R and STATUS after the command is accepted in `s` and its job completes. -/
def job (i : Instr) (s : State) : Nat × Word :=
  let t := nextOf s (engineStep (nextOf s (exec i s)))
  (t.x .R, statusWord t)

/-- The state after a due write. -/
def afterWrite (off : Offset) (v : Word) (s : State) : State := nextOf s (step (State.due s (.host (.writeWord off v))))

/-- The answer to a due transfer. -/
def answer (t : Transfer) (s : State) : Option Response := (nextOf s (step (State.due s (.host t)))).response

/-! ### Well-formedness: a refusal for each check (spec/20_memory.md R43) -/

theorem test_wellFormed_word : Transfer.wellFormed ⟨0x008, .word, .write 1⟩ = true := by decide

theorem test_wellFormed_refuses_byte : Transfer.wellFormed ⟨0x008, .byte, .write 1⟩ = false := by decide

theorem test_wellFormed_refuses_half : Transfer.wellFormed ⟨0x008, .half, .read⟩ = false := by decide

theorem test_wellFormed_refuses_misaligned : Transfer.wellFormed ⟨0x002, .word, .read⟩ = false := by decide

/-! ### Decoding: words written out bit by bit from spec/30_encoding.md R54 to R58 -/

theorem test_decode_modexp : decode 0x008 0b00000000000000000000000000000001 = .ok .modexp := by decide

theorem test_decode_modmul : decode 0x008 0b00000000000000000000000000000010 = .ok .modmul := by decide

theorem test_decode_gcd : decode 0x008 0b00000000000000000000000000000011 = .ok .gcd := by decide

theorem test_decode_modinv : decode 0x008 0b00000000000000000000000000000100 = .ok .modinv := by decide

/-- Bit 31 set, bit 30 set too, bits 1:0 = 11: SOFT_RESET wins (spec/43_control.md R90). -/
theorem test_decode_softReset :
    decode 0x010 0b11000000000000000000000000000011 = .ok (.softReset 0b1000000000000000000000000000011) := by decide

theorem test_decode_zeroize :
    decode 0x010 0b01000000000000000000000000000110 = .ok (.zeroize 0b0000000000000000000000000001 true false) := by decide

theorem test_decode_setie :
    decode 0x010 0b00100000000000000000000000000001 = .ok (.setie 0b1000000000000000000000000000 false true) := by decide

theorem test_decode_clrst :
    decode 0x00C 0b00000000000000000000000000010101 =
      .ok (.clrst 0b0000000000000000000000000001 false true false true) := by decide

theorem test_decode_refuses :
    decode 0x008 0x00000000 = .error (.reservedOpcode 0) ∧ decode 0x008 0x0000000F = .error (.reservedOpcode 15) ∧
    decode 0x008 0x80000001 = .error (.reservedBits 0x8000000) ∧
    decode 0x014 0x00000001 = .error (.notACommandRegister 0x014) := by decide

/-- The match word of each row of spec/opcode_table.json. -/
theorem test_table_words :
    decodeTableWord 32 0x00000001 = some .modexp ∧ decodeTableWord 32 0x00000002 = some .modmul ∧
    decodeTableWord 32 0x00000003 = some .gcd ∧ decodeTableWord 32 0x00000004 = some .modinv ∧
    decodeTableWord 32 0x80000000 = some (.softReset 0) ∧ decodeTableWord 32 0x40000000 = some (.zeroize 0 false false) ∧
    decodeTableWord 32 0x00000000 = some (.setie 0 false false) ∧
    decodeTableWord 0 0x00000000 = some (.clrst 0 false false false false) := by decide

/-! ### The commands (spec/95_test_vectors.md, sections 2.1 to 2.5) -/

/-- Source vector S4. -/
theorem test_modexp_encrypts : job .modexp (loaded 65 17 3233) = (2790, 0x02) := by decide +kernel

/-- MODULUS_INVALID wins over RANGE. -/
theorem test_modexp_zero_modulus : job .modexp (loaded 5000 1 0) = (0, 0x24) := by decide +kernel

/-- The full 128-bit product is needed. -/
theorem test_modmul_full_product :
    job .modmul (loaded 0xFFFFFFFFFFFFFFFE 0xFFFFFFFFFFFFFFFE 0xFFFFFFFFFFFFFFFF) = (1, 0x02) := by decide +kernel

/-- RANGE on B even with A = 0. -/
theorem test_modmul_range_on_b : job .modmul (loaded 0 3233 3233) = (0, 0x34) := by decide +kernel

/-- N is ignored. -/
theorem test_gcd_ignores_n : job .gcd (loaded 12 18 5) = (6, 0x02) := by decide +kernel

/-- 2^64 - 1 = (2^32 - 1)(2^32 + 1). -/
theorem test_gcd_wide : job .gcd (loaded 0xFFFFFFFFFFFFFFFF 0xFFFFFFFF 0) = (0xFFFFFFFF, 0x02) := by decide +kernel

/-- A coefficient that is negative at first: 3 * 5 = 2 * 7 + 1. -/
theorem test_modinv_wraps_negative : job .modinv (loaded 3 0 7) = (5, 0x02) := by decide +kernel

theorem test_modinv_not_coprime : job .modinv (loaded 2 0 4) = (0, 0x44) := by decide +kernel

/-- A zero word with STATUS 0x0A before: DONE cleared, OVERRUN kept, ERR set. -/
theorem test_illegal_word_keeps_overrun :
    statusWord (afterWrite 0x008 0 (flagged 0 true false true false false false)) = 0x1C := by decide

theorem test_illegal_word_while_busy :
    statusWord (afterWrite 0x008 5 (flagged 0 false false false true false false)) = 0x09 := by decide

/-! ### The control actions (spec/95_test_vectors.md, section 2.6) -/

/-- STATUS 0x2, CTRL 0: enabling DONE raises irq with the write. -/
theorem test_setie_raises_irq :
    (afterWrite 0x010 1 (flagged 0 false false true false false false)).irq = true := by decide

theorem test_setie_ignores_reserved_bits :
    ctrlWord (afterWrite 0x010 0x3FFFFFFC (flagged 0 false false true false true true)) = 0 := by decide

/-- BUSY 0, A = 65, R = 2790, CTRL 0x3. -/
theorem test_zeroize_clears :
    (let t := afterWrite 0x010 0x40000000 (flagged 0 false false true false true true)
     (t.x .A, t.x .B, t.x .N, t.x .R, ctrlWord t, statusWord t)) = (0, 0, 0, 0, 0x0, 0x02) := by decide

theorem test_zeroize_while_busy :
    (let t := afterWrite 0x010 0x40000003 (flagged 0 false false false true false false)
     (t.x .A, t.x .R, ctrlWord t, statusWord t)) = (65, 2790, 0x3, 0x09) := by decide

/-- SOFT_RESET and ZEROIZE both set, while BUSY: the reset state. -/
theorem test_softReset_discards_job :
    (let t := afterWrite 0x010 0xC0000003 (flagged 0 false false false true true true)
     (t.x .A, t.x .R, ctrlWord t, statusWord t, isNext (engineStep t))) = (0, 0, 0x0, 0x00, false) := by decide

/-- STATUS 0x3C. -/
theorem test_clrst_clears_err_only :
    statusWord (afterWrite 0x00C 0x4 (flagged 3 true true false false false false)) = 0x08 := by decide

/-- BUSY is not writable, and bit 0 does not clear DONE. -/
theorem test_clrst_ignores_bit_0 :
    statusWord (afterWrite 0x00C 0x1 (flagged 0 false false true false false false)) = 0x02 := by decide

/-! ### The register window (spec/95_test_vectors.md, section 2.7) -/

theorem test_read_constants :
    answer (.readWord 0x000) State.reset = some (.data 0x4D455850) ∧
    answer (.readWord 0x004) State.reset = some (.data 0x00010040) ∧
    answer (.readWord 0x004) (State.resetOf ⟨63⟩) = some (.data 0x00010800) := by decide +kernel

theorem test_operands_are_write_only : answer (.readWord 0x100) (afterWrite 0x100 0x41 State.reset) = some (.data 0) := by
  decide

/-- The high word of a 64-bit operand, and a word past NW. -/
theorem test_operand_words :
    (afterWrite 0x304 0x00000001 (loaded 0 0 7)).x .N = 0x100000007 ∧ (afterWrite 0x108 5 (loaded 65 0 0)).x .A = 65 := by
  decide +kernel

theorem test_refused_accesses :
    answer ⟨0x002, .word, .read⟩ State.reset = some ⟨some 0, true⟩ ∧
    answer ⟨0x008, .byte, .write 1⟩ State.reset = some ⟨none, true⟩ ∧
    (nextOf State.reset (step (State.due State.reset (.host ⟨0x008, .byte, .write 1⟩)))).busy = false := by decide

/-! ### A state that meets the hypotheses of each statement -/

/-- An idle state and a busy one. -/
def idle : State := loaded 65 17 3233

def busy : State := idle.accepted 1

theorem witness_DecodeOfEncode : (Instr.clrst 0xFFFFFFF true true true true).wellFormed = true := by decide

theorem witness_EncodeOfDecode : decode 0x008 0x00000004 = .ok .modinv ∧ decode 0x010 0xFFFFFFFF = .ok (.softReset 0x7FFFFFFF) := by
  decide

theorem witness_DecoderAgreesWithOpcodeTable :
    (⟨"SOFT_RESET", ctrlOffset, 0x80000000, 0x80000000⟩ : OpcodeRow) ∈ opcodeTable ∧
    OpcodeRow.fits ⟨"SOFT_RESET", ctrlOffset, 0x80000000, 0x80000000⟩ 0xC0000000 = true ∧
    (∃ row row', row ∈ opcodeTable ∧ row' ∈ opcodeTable ∧ row.off = row'.off ∧ row.fits 4 = true ∧ row'.fits 4 = true) := by
  refine ⟨by decide, by decide, ⟨"MODINV", cmdOffset, 4, 0xFFFFFFFF⟩, ⟨"MODINV", cmdOffset, 4, 0xFFFFFFFF⟩, ?_⟩
  decide

theorem witness_StepRunsDecodedInstruction :
    (State.due idle (.host (.writeWord 0x008 1))).turns = .host (.writeWord 0x008 1) :: [] ∧ decode 0x008 1 = .ok .modexp := by
  decide

theorem witness_FetchWordRunsNext : decodeTableWord 32 0x40000001 = some (.zeroize 0 false true) := by decide

theorem witness_inv : State.reset.Inv ∧ busy.Inv ∧ (flagged 3 true true false false true true).Inv := by
  refine ⟨⟨?_, ?_, ?_, ?_, ?_⟩, ⟨?_, ?_, ?_, ?_, ?_⟩, ⟨?_, ?_, ?_, ?_, ?_⟩⟩ <;> decide

/-- StepAnswersExactlyWhereEnabled: good states on both sides of the equivalence. -/
theorem witness_StepAnswersExactlyWhereEnabled : State.reset.canMove = false ∧ busy.canMove = true := by decide

/-- CmdWriteIssuesCommand, IdleCommandIsAccepted: the first and last legal word, and the illegal words beside them. -/
theorem witness_CmdWriteIssuesCommand :
    busy.busy = true ∧ idle.busy = false ∧
    ((1 : Word) = 0x00000001 ∨ (1 : Word) = 0x00000002 ∨ (1 : Word) = 0x00000003 ∨ (1 : Word) = 0x00000004) ∧
    ((4 : Word) = 0x00000001 ∨ (4 : Word) = 0x00000002 ∨ (4 : Word) = 0x00000003 ∨ (4 : Word) = 0x00000004) ∧
    ¬((0 : Word) = 0x00000001 ∨ (0 : Word) = 0x00000002 ∨ (0 : Word) = 0x00000003 ∨ (0 : Word) = 0x00000004) ∧
    ¬((5 : Word) = 0x00000001 ∨ (5 : Word) = 0x00000002 ∨ (5 : Word) = 0x00000003 ∨ (5 : Word) = 0x00000004) := by decide

theorem witness_IdleCommandIsAccepted : idle.busy = false := by decide

theorem witness_BusyCmdWriteOnlySetsOverrun :
    (State.due busy (.host (.writeWord cmdOffset 5))).busy = true ∧
    (State.due busy (.host (.writeWord cmdOffset 5))).turns = .host (.writeWord cmdOffset 5) :: [] := by decide

theorem witness_IllegalCommandWordEndsAtOnce :
    (State.due idle (.host (.writeWord cmdOffset 5))).turns = .host (.writeWord cmdOffset 5) :: [] ∧
    (5 : Word) ≠ 1 ∧ (5 : Word) ≠ 2 ∧ (5 : Word) ≠ 3 ∧ (5 : Word) ≠ 4 ∧
    (State.due idle (.host (.writeWord cmdOffset 5))).busy = false ∧
    (State.due busy (.host (.writeWord cmdOffset 5))).busy = true := by decide

/-- ModexpWritesPower, at the smallest modulus and the largest legal base. -/
theorem witness_ModexpWritesPower :
    (loaded 1 0 2).busy = false ∧ 2 ≤ (loaded 1 0 2).x .N ∧ (loaded 1 0 2).x .A < (loaded 1 0 2).x .N := by decide +kernel

/-- ModexpRejectsBadOperands: N = 1, and A = N = 2. -/
theorem witness_ModexpRejectsBadOperands :
    (loaded 0 0 1).busy = false ∧ (loaded 0 0 1).x .N < 2 ∧ (loaded 2 0 2).busy = false ∧ 2 ≤ (loaded 2 0 2).x .N ∧
    (loaded 2 0 2).x .N ≤ (loaded 2 0 2).x .A := by decide +kernel

theorem witness_ModexpZeroExponentGivesOne :
    (loaded 0 0 2).busy = false ∧ 2 ≤ (loaded 0 0 2).x .N ∧ (loaded 0 0 2).x .A < (loaded 0 0 2).x .N ∧
    (loaded 0 0 2).x .B = 0 := by decide +kernel

theorem witness_ModmulWritesProduct :
    (loaded 1 1 2).busy = false ∧ 2 ≤ (loaded 1 1 2).x .N ∧ (loaded 1 1 2).x .A < (loaded 1 1 2).x .N ∧
    (loaded 1 1 2).x .B < (loaded 1 1 2).x .N := by decide +kernel

/-- ModmulRejectsBadOperands: N = 1, then A = N, then B = N. -/
theorem witness_ModmulRejectsBadOperands :
    (loaded 0 0 1).busy = false ∧ (loaded 0 0 1).x .N < 2 ∧ 2 ≤ (loaded 2 0 2).x .N ∧
    (loaded 2 0 2).x .N ≤ (loaded 2 0 2).x .A ∧ (loaded 0 2 2).x .N ≤ (loaded 0 2 2).x .B := by decide +kernel

theorem witness_GcdWritesGreatestCommonDivisor : (loaded 0 0 0).busy = false := by decide

theorem witness_GcdResultLaws :
    ∃ t t' : State, (loaded 12 18 0).busy = false ∧ engineStep ((loaded 12 18 0).accepted 3) = .next t ∧
      (loaded 18 12 0).x .A = (loaded 12 18 0).x .B ∧ (loaded 18 12 0).x .B = (loaded 12 18 0).x .A ∧
      engineStep ((loaded 18 12 0).accepted 3) = .next t' :=
  ⟨_, _, by decide, eq_next idle _ (by decide +kernel), by decide +kernel, by decide +kernel, eq_next idle _ (by decide +kernel)⟩

theorem witness_ModinvWritesUniqueInverse :
    (loaded 1 0 2).busy = false ∧ 2 ≤ (loaded 1 0 2).x .N ∧ (loaded 1 0 2).x .A < (loaded 1 0 2).x .N ∧
    Nat.gcd ((loaded 1 0 2).x .A) ((loaded 1 0 2).x .N) = 1 := by decide +kernel

/-- ModinvRejectsBadOperands: N = 1, then A = N, then A = 0. -/
theorem witness_ModinvRejectsBadOperands :
    (loaded 0 0 1).busy = false ∧ (loaded 0 0 1).x .N < 2 ∧ 2 ≤ (loaded 2 0 2).x .N ∧
    (loaded 2 0 2).x .N ≤ (loaded 2 0 2).x .A ∧ (loaded 0 0 2).x .A < (loaded 0 0 2).x .N ∧
    Nat.gcd ((loaded 0 0 2).x .A) ((loaded 0 0 2).x .N) ≠ 1 := by decide +kernel

theorem witness_ModexpEqualsModmulChain :
    idle.busy = false ∧ 2 ≤ idle.x .N ∧ idle.x .A < idle.x .N ∧
    modmulChain idle.width.opw (idle.x .A) (idle.x .B) (idle.x .N) 1 = some 2790 := by decide +kernel

/-- RsaRoundTrip: the source's key, p = 61, q = 53, e = 17, d = 2753, and its symbol 65. -/
theorem witness_RsaRoundTrip :
    ∃ keyDone : State, Nat.Prime 61 ∧ Nat.Prime 53 ∧ (61 : Nat) ≠ 53 ∧ (loaded 17 0 3120).x .A = 17 ∧
      (loaded 17 0 3120).x .N = (61 - 1) * (53 - 1) ∧ engineStep ((loaded 17 0 3120).accepted 4) = .next keyDone ∧
      keyDone.done = true ∧ keyDone.x .R = 2753 ∧ (65 : Nat) < 61 * 53 ∧ (loaded 65 17 3233).x .A = 65 ∧
      (loaded 65 17 3233).x .B = 17 ∧ (loaded 65 17 3233).x .N = 61 * 53 ∧ (loaded 2790 2753 3233).x .B = 2753 ∧
      (loaded 2790 2753 3233).x .N = 61 * 53 ∧ (loaded 2790 2753 3233).x .A = 2790 :=
  ⟨_, by norm_num, by norm_num, by decide, by decide +kernel, by decide +kernel, eq_next idle _ (by decide +kernel),
    by decide +kernel, by decide +kernel, by decide, by decide +kernel, by decide +kernel, by decide +kernel,
    by decide +kernel, by decide +kernel, by decide +kernel⟩

/-- ResultsAreNeverTruncated, for a modular command and for GCD with `B = 0` and not. -/
theorem witness_ResultsAreNeverTruncated :
    busy.jobResult = some (.ok 2790) ∧ busy.jobOp ≠ 3 ∧ ((loaded 7 0 0).accepted 3).jobResult = some (.ok 7) ∧
    ((loaded 7 0 0).accepted 3).jobOp = 3 ∧ ((loaded 7 0 0).accepted 3).x .B = 0 ∧
    ((loaded 12 18 0).accepted 3).jobResult = some (.ok 6) ∧ ((loaded 12 18 0).accepted 3).x .B ≠ 0 := by decide +kernel

/-- SameJobSameOutcome, for a job that succeeds and one that fails, with another R and OVERRUN. -/
theorem witness_SameJobSameOutcome :
    ∃ t t' u : State, engineStep busy = .next t ∧ engineStep { busy with r := 5, overrun := true } = .next t' ∧
      busy.err = false ∧ t.err = false ∧ engineStep ((loaded 3 5 0).accepted 1) = .next u ∧
      ((loaded 3 5 0).accepted 1).err = false ∧ u.err = true :=
  ⟨_, _, _, eq_next idle _ (by decide +kernel), eq_next idle _ (by decide +kernel), by decide, by decide +kernel,
    eq_next idle _ (by decide +kernel), by decide, by decide +kernel⟩

theorem witness_CompletionIsOneAtomicStep :
    idle.busy = false ∧ busy.busy = true ∧
    compute busy.width.opw busy.jobOp (busy.x .A) (busy.x .B) (busy.x .N) = some (.ok 2790) ∧
    ((loaded 3 5 0).accepted 1).jobResult = some (.err .modulusInvalid) := by decide +kernel

/-- JobRunsOnOperandsAtAcceptance: an operand write and a ZEROIZE race with the job. -/
theorem witness_JobRunsOnOperandsAtAcceptance :
    let ts : List Turn := [.host (.writeWord 0x100 72), .host (.writeWord 0x010 0x40000000), .host ⟨0x010, .byte, .write 0x80000000⟩]
    let s : State := { idle with turns := .host Instr.modexp.transfer :: (ts ++ [.engine]) }
    s.busy = false ∧ commandOp .modexp = some 1 ∧ s.turns = .host Instr.modexp.transfer :: (ts ++ [.engine]) ∧
      ∀ turn ∈ ts, turn.keepsJob = true := by decide

/-- StepKeepsJobInFlight: an operand write races with the job. -/
theorem witness_StepKeepsJobInFlight :
    ∃ t : State, (State.due busy (.host (.writeWord 0x100 72))).busy = true ∧
      (State.due busy (.host (.writeWord 0x100 72))).engineDue = false ∧
      (State.due busy (.host (.writeWord 0x100 72))).resetDue = false ∧
      ¬ (State.due busy (.host (.writeWord 0x100 72))).softResetDue ∧
      step (State.due busy (.host (.writeWord 0x100 72))) = .next t ∧ (State.due busy (.host (.writeWord 0x100 72))).Inv :=
  ⟨_, by decide, by decide, by decide, (by rintro ⟨v, h, -⟩; cases h), eq_next idle _ (by decide),
    by constructor <;> decide⟩

theorem witness_EveryJobEnds : busy.Inv ∧ busy.busy = true := ⟨witness_inv.2.1, by decide⟩

/-- CtrlWriteEffect: a word for each of the four cases; SOFT_RESET with the ZEROIZE bit set too. -/
theorem witness_CtrlWriteEffect :
    (0xFFFFFFFF : Word).getLsbD 31 = true ∧ (0x3FFFFFFF : Word).getLsbD 31 = false ∧ (0x3FFFFFFF : Word).getLsbD 30 = false ∧
    (0x7FFFFFFF : Word).getLsbD 31 = false ∧ (0x7FFFFFFF : Word).getLsbD 30 = true ∧ busy.busy = true ∧
    idle.busy = false := by decide

theorem witness_ZeroizeClearsOperands :
    (0x40000000 : Word).getLsbD 31 = false ∧ (0x40000000 : Word).getLsbD 30 = true ∧ idle.busy = false ∧
    busy.busy = true := by decide

theorem witness_SoftResetReturnsToResetState : (0x80000000 : Word).getLsbD 31 = true := by decide

theorem witness_HardwareResetIsOneStep : (State.due busy .reset).turns = .reset :: [] := by decide

theorem witness_ResetStateIsIdle : commandOp .modinv = some 4 := by decide

theorem witness_InterruptOutputFollowsFlagsAndEnables :
    (flagged 0 false false true false false false).done = true ∧ (flagged 3 false true false false false false).err = true ∧
    idle.busy = false ∧ commandOp .modexp = some 1 ∧ commandOp .modinv = some 4 ∧
    busy.busy = true ∧ busy.done = false ∧ busy.err = false ∧ busy.jobResult = some (.ok 2790) ∧
    ((loaded 3 5 0).accepted 1).busy = true ∧ ((loaded 3 5 0).accepted 1).jobResult = some (.err .modulusInvalid) := by
  decide +kernel

/-- HostReadReturnsWindowMap: a refused read, and an offset for each line of R45; R's last word and the word past it. -/
theorem witness_HostReadReturnsWindowMap :
    (State.due idle (.host ⟨0x003, .word, .read⟩)).turns = .host ⟨0x003, .word, .read⟩ :: [] ∧
    (0x003 : Offset).toNat % 4 ≠ 0 ∧
    (State.due idle (.host (.readWord 0x404))).turns = .host (.readWord 0x404) :: [] ∧ (0x404 : Offset).toNat % 4 = 0 ∧
    1 < idle.width.nw ∧ (0x404 : Offset).toNat = 0x400 + 4 * 1 ∧ ¬ 2 < idle.width.nw ∧
    (0x408 : Offset).toNat = 0x400 + 4 * 2 ∧ (0x008 : Offset).toNat % 4 = 0 ∧ (0xFFC : Offset).toNat % 4 = 0 := by decide

/-- OperandWriteSetsOneWord, at the last word of N. -/
theorem witness_OperandWriteSetsOneWord :
    OperandReg.N ≠ .R ∧ 1 < (State.due idle (.host (.writeWord (wordOffset .N 1) 9))).width.nw ∧
    (State.due idle (.host (.writeWord (wordOffset .N 1) 9))).busy = false ∧
    (State.due idle (.host (.writeWord (wordOffset .N 1) 9))).turns = .host (.writeWord (wordOffset .N 1) 9) :: [] := by
  decide

theorem witness_BusyOperandWriteOnlySetsOverrun :
    OperandReg.A ≠ .R ∧ 0 < (State.due busy (.host (.writeWord (wordOffset .A 0) 9))).width.nw ∧
    (State.due busy (.host (.writeWord (wordOffset .A 0) 9))).busy = true ∧
    (State.due busy (.host (.writeWord (wordOffset .A 0) 9))).turns = .host (.writeWord (wordOffset .A 0) 9) :: [] := by
  decide

/-- ReadOnlyAndReservedWritesAreIgnored: the offsets at the ends of its ranges. -/
theorem witness_ReadOnlyAndReservedWritesAreIgnored :
    (State.due idle (.host (.writeWord 0x0FC 9))).turns = .host (.writeWord 0x0FC 9) :: [] ∧
    (0x0FC : Offset).toNat % 4 = 0 ∧ 0x014 ≤ (0x0FC : Offset).toNat ∧ (0x0FC : Offset).toNat < 0x100 ∧
    (0x014 : Offset).toNat % 4 = 0 ∧ 0x014 ≤ (0x014 : Offset).toNat ∧ idle.width.nw ≤ 2 ∧
    (0x108 : Offset).toNat = OperandReg.base .A + 4 * 2 ∧ (0x3FC : Offset).toNat = OperandReg.base .N + 4 * 63 ∧
    0x400 ≤ (0x400 : Offset).toNat ∧ 0x400 ≤ (0xFFC : Offset).toNat := by decide

theorem witness_RefusedAccessChangesNothing :
    (State.due idle (.host ⟨0x008, .half, .write 1⟩)).turns = .host ⟨0x008, .half, .write 1⟩ :: [] ∧
    AccessSize.half ≠ .word ∧ (0x00A : Offset).toNat % 4 ≠ 0 := by decide

/-- WindowBytesAreLittleEndian: the last word of the window, and addresses on both sides of the window. -/
theorem witness_WindowBytesAreLittleEndian :
    (0xFFC : Offset).toNat % 4 = 0 ∧ Config.base ≤ Config.base + 4095 ∧ Config.base + 4096 ≤ Config.base + 4096 := by
  refine ⟨by decide, by omega, by omega⟩

theorem witness_LoadingAllWordsSetsOperand :
    let s : State := { idle with turns := (ldopTransfers idle.width .B 0xFFFFFFFFFFFFFFFF).map .host ++ [.engine] }
    OperandReg.B ≠ .R ∧ s.busy = false ∧ 0xFFFFFFFFFFFFFFFF < 2 ^ s.width.opw ∧
      s.turns = (ldopTransfers s.width .B 0xFFFFFFFFFFFFFFFF).map .host ++ [.engine] := by decide +kernel

theorem witness_AnswersIgnoreOperandsUntilCompletion :
    ∀ turn ∈ (State.due busy (.host (.readWord 0x100))).turns, turn ≠ .engine := by decide

/-- The two frames: a next state, with an instruction of each kind, while BUSY = 0 and while BUSY = 1. -/
theorem witness_InstructionFrames :
    (∃ t, exec .gcd idle = .next t) ∧ (∃ t, exec .gcd busy = .next t) ∧ (commandOp .gcd).isSome = true ∧
    (∃ t, exec (.setie 0 true true) busy = .next t) ∧ (∃ t, exec (.clrst 0 false false false false) idle = .next t) ∧
    (∃ t, exec (.zeroize 0 true true) idle = .next t) ∧ (∃ t, exec (.zeroize 0 true true) busy = .next t) ∧
    (∃ t, exec (.softReset 0) busy = .next t) ∧ (0x3FC : Offset).toNat / 4 ≠ 3 ∧ (0x3FC : Offset).toNat < 0x400 ∧
    0x500 ≤ (0x500 : Offset).toNat ∧ (0x010 : Offset).toNat / 4 ≠ 3 ∧ (0x00F : Offset).toNat / 4 ≠ 4 := by
  refine ⟨⟨_, rfl⟩, ⟨_, rfl⟩, rfl, ⟨_, rfl⟩, ⟨_, rfl⟩, ⟨_, rfl⟩, ⟨_, rfl⟩, ⟨_, rfl⟩, ?_⟩
  decide

theorem witness_CompletionFrame :
    ∃ t u : State, engineStep busy = .next t ∧ engineStep ((loaded 3 5 0).accepted 1) = .next u ∧
      ((loaded 3 5 0).accepted 1).err = false ∧ u.err = true ∧ (0x010 : Offset).toNat / 4 ≠ 3 ∧
      (0x010 : Offset).toNat < 0x400 :=
  ⟨_, _, eq_next idle _ (by decide +kernel), eq_next idle _ (by decide +kernel), by decide, by decide +kernel, by decide,
    by decide⟩

/-- OnlyHostChangesOperands: a step that changes A, by an operand write and by each of the other causes. -/
theorem witness_OnlyHostChangesOperands :
    ∀ turn ∈ [Turn.host (.writeWord 0x100 9), .host (.writeWord 0x010 0x40000000), .host (.writeWord 0x010 0x80000000), .reset],
      isNext (step (State.due idle turn)) = true ∧ (nextOf idle (step (State.due idle turn))).x .A ≠ idle.x .A := by
  decide

/-- OnlyCompletionOrClearingChangesR: a step that changes R, by completion and by each of the other causes. -/
theorem witness_OnlyCompletionOrClearingChangesR :
    (isNext (step busy) = true ∧ (nextOf busy (step busy)).x .R ≠ busy.x .R) ∧
    ∀ turn ∈ [Turn.host (.writeWord 0x010 0x40000000), .host (.writeWord 0x010 0x80000000), .reset],
      isNext (step (State.due (flagged 0 false false true false false false) turn)) = true ∧
      (nextOf idle (step (State.due (flagged 0 false false true false false false) turn))).x .R ≠ 2790 := by decide +kernel

/-- WhatChangesBusy, WhatChangesDone, WhatChangesErr, OverrunIsSticky, StepKeepsInvariant, StepKeepsWidth: a good state for
each clause, and a step from it. -/
theorem witness_WhatChangesFlags :
    ∃ t u v w : State, step busy = .next t ∧ busy.busy = true ∧ busy.done = false ∧ busy.err = false ∧ busy.overrun = false ∧
      step (State.due (flagged 0 true false true false false false) (.host (.writeWord 0x008 4))) = .next u ∧
      (flagged 0 true false true false false false).done = true ∧ (flagged 0 true false true false false false).busy = false ∧
      (flagged 0 true false true false false false).overrun = true ∧
      step (State.due (flagged 3 true true false false true true) (.host (.writeWord 0x00C 0xC))) = .next v ∧
      (flagged 3 true true false false true true).err = true ∧
      step (State.due busy (.host (.writeWord 0x3FC 1))) = .next w :=
  ⟨_, _, _, _, eq_next idle _ (by decide +kernel), by decide, by decide, by decide, by decide,
    eq_next idle _ (by decide), by decide, by decide, by decide, eq_next idle _ (by decide), by decide,
    eq_next idle _ (by decide)⟩

/-- The good states of the steps above. -/
theorem witness_WhatChangesFlags_inv :
    busy.Inv ∧ (State.due (flagged 0 true false true false false false) (.host (.writeWord 0x008 4))).Inv ∧
    (State.due (flagged 3 true true false false true true) (.host (.writeWord 0x00C 0xC))).Inv := by
  refine ⟨witness_inv.2.1, ⟨?_, ?_, ?_, ?_, ?_⟩, ⟨?_, ?_, ?_, ?_, ?_⟩⟩ <;> decide

end Sys2Proof.Tests
end

section
/-! Where a step answers a next state, and that no step changes the width (spec/00_scope.md R7, R14). -/

namespace Sys2Proof.Machine

/-! ### The width -/

/-- In every case of `step_cases` the next state comes from `s` by updates that each keep the width (log entry 1). -/
theorem step_width {s t : State} (h : step s = .next t) : t.width = s.width := by
  cases step_cases h <;> simp

/-- Settles O59, by the cases of a step. -/
theorem stepKeepsWidth : Obligations.StepKeepsWidth := by
  unfold Obligations.StepKeepsWidth
  exact fun _ _ => step_width

/-! ### The completion step -/

/-- The four legal opcodes have a result whatever the operands (spec/40_command.md R68). -/
theorem exists_compute (opw : Nat) {op : BitVec 4} (a b n : Nat) (h : 1 ≤ op.toNat ∧ op.toNat ≤ 4) :
    ∃ res, compute opw op a b n = some res := by
  have hop : op = opModexp ∨ op = opModmul ∨ op = opGcd ∨ op = opModinv := by
    simp only [← BitVec.toNat_inj, opModexp, opModmul, opGcd, opModinv, BitVec.reduceToNat]
    omega
  rcases hop with rfl | rfl | rfl | rfl <;> exact ⟨_, rfl⟩

/-- In a good state a job in flight has a result. -/
theorem State.Inv.exists_jobResult {s : State} (h : s.Inv) (hb : s.busy = true) : ∃ res, s.jobResult = some res :=
  exists_compute _ _ _ _ (h.busyJobOp hb)

/-- The invariant says nothing of what is due. -/
theorem State.Inv.withTurns {s : State} (h : s.Inv) (rest : List Turn) : (s.withTurns rest).Inv :=
  ⟨h.oneOutcome, h.errcodeIff, h.errcodeLe, h.busyNoOutcome, h.busyJobOp⟩

/-- The completion step of a job with a result. -/
theorem engineStep_of_jobResult {s : State} {res : JobResult} (hb : s.busy = true) (hr : s.jobResult = some res) :
    engineStep s = .next (s.finish res) := by
  simp [engineStep, hb, hr]

/-- In a good state the completion step is enabled exactly when BUSY = 1 (spec/40_command.md R63). -/
theorem State.Inv.engineStep_answers_iff {s : State} (h : s.Inv) : (∃ t, engineStep s = .next t) ↔ s.busy = true := by
  constructor
  · rintro ⟨t, ht⟩
    exact (engineStep_cases ht).1
  · intro hb
    obtain ⟨res, hr⟩ := h.exists_jobResult hb
    exact ⟨_, engineStep_of_jobResult hb hr⟩

/-! ### A host access -/

/-- Every instruction answers a next state, from every state. -/
theorem exec_answers (i : Instr) (s : State) : ∃ t, exec i s = .next t := by
  cases i with
  | zeroize rsvd e d =>
    cases hb : s.busy
    · exact ⟨(s.setEnables e d).zeroizeOperands, by simp [exec, execZeroize, hb]⟩
    · exact ⟨(s.setEnables e d).setOverrun, by simp [exec, execZeroize, hb]⟩
  | _ => exact ⟨_, rfl⟩

/-- A CMD write answers a next state, whether its word is legal or not. -/
theorem writeCmd_answers (v : Word) (s : State) : ∃ t, writeCmd v s = .next t := by
  rcases writeCmd_cases v s with ⟨_, _, _, _, _, _, hw⟩ | ⟨_, _, hw⟩
  · exact ⟨_, hw⟩
  · exact ⟨_, hw⟩

/-- A write answers a next state at every target of the window (spec/20_memory.md R46). -/
theorem memWrite_answers (off : Offset) (v : Word) (s : State) : ∃ t, memWrite off v s = .next t := by
  unfold memWrite
  cases windowTarget off with
  | cmd => exact writeCmd_answers v s
  | status => exact exec_answers _ s
  | ctrl => exact exec_answers _ s
  | _ => exact ⟨_, rfl⟩

/-- A host access always answers a next state, a refused one too (spec/20_memory.md R43; log entry 5). -/
theorem hostAccess_answers (tr : Transfer) (s : State) : ∃ t, hostAccess tr s = .next t := by
  unfold hostAccess
  split
  · split
    · exact ⟨_, rfl⟩
    · exact memWrite_answers _ _ _
  · exact ⟨_, rfl⟩

/-! ### The step -/

/-- With nothing due, a step is the completion of the job in flight, if there is one (log entry 3). -/
theorem step_nil {s : State} (h : s.turns = []) : step s = if s.busy then engineStep s else .fault .noTransition := by
  simp [step, takeTurn, h]

theorem step_host {s : State} {tr : Transfer} {rest : List Turn} (h : s.turns = .host tr :: rest) :
    step s = hostAccess tr (s.withTurns rest) := by
  simp [step, takeTurn, h]

theorem step_engine {s : State} {rest : List Turn} (h : s.turns = .engine :: rest) :
    step s = engineStep (s.withTurns rest) := by
  simp [step, takeTurn, h]

theorem step_reset {s : State} {rest : List Turn} (h : s.turns = .reset :: rest) :
    step s = .next (s.withTurns rest).toReset := by
  simp [step, takeTurn, h]

/-- Settles O10, by what is due: a host access or a reset always answers, the engine exactly when BUSY = 1. -/
theorem stepAnswersExactlyWhereEnabled : Obligations.StepAnswersExactlyWhereEnabled := by
  unfold Obligations.StepAnswersExactlyWhereEnabled
  intro s hs
  rcases ht : s.turns with _ | ⟨_ | _ | _, rest⟩
  case nil =>
    rw [step_nil ht]
    cases hb : s.busy
    · simp [State.canMove, ht, hb]
    · simpa [State.canMove, ht, hb] using hs.engineStep_answers_iff
  case cons.host tr =>
    rw [step_host ht]
    simp [State.canMove, ht, hostAccess_answers]
  case cons.engine =>
    rw [step_engine ht, (hs.withTurns rest).engineStep_answers_iff]
    simp [State.canMove, ht]
  case cons.reset =>
    rw [step_reset ht]
    simp [State.canMove, ht]

end Sys2Proof.Machine
end

section
/-! The invariant of the reachable states: each operation keeps it, so every step does (spec/10_state.md R28, R30,
spec/43_control.md R93, spec/60_exceptions.md R95). -/

namespace Sys2Proof.Machine

/-! ### STATUS and JOB_OP after a CMD write -/

section
variable (s : State) (op : Option (BitVec 4))

/-- A legal command word leaves BUSY set, whether it is accepted or turned away (spec/40_command.md R64, R66). -/
@[simp] theorem issueCommand_busy : (s.issueCommand op).busy = (s.busy || op.isSome) := by
  cases hb : s.busy <;> cases op <;> simp [State.issueCommand, hb]

@[simp] theorem issueCommand_done : (s.issueCommand op).done = (s.busy && s.done) := by
  cases hb : s.busy <;> cases op <;> simp [State.issueCommand, hb]

/-- While BUSY = 0 exactly the illegal words raise ERR (spec/40_command.md R64, R65). -/
@[simp] theorem issueCommand_err : (s.issueCommand op).err = if s.busy then s.err else op.isNone := by
  cases hb : s.busy <;> cases op <;> simp [State.issueCommand, hb]

/-- OVERRUN records a command word that BUSY = 1 turned away; acceptance does not clear it (spec/10_state.md R31). -/
@[simp] theorem issueCommand_overrun : (s.issueCommand op).overrun = (s.busy || s.overrun) := by
  cases hb : s.busy <;> cases op <;> simp [State.issueCommand, hb]

end

/-! ### Every operation keeps the invariant -/

/-- The invariant speaks of DONE, ERR, ERRCODE, BUSY and JOB_OP only. -/
theorem State.Inv.of_eq {s t : State} (h : s.Inv) (hd : t.done = s.done) (he : t.err = s.err)
    (hc : t.errcode = s.errcode) (hb : t.busy = s.busy) (ho : t.jobOp = s.jobOp) : t.Inv :=
  ⟨by rw [hd, he]; exact h.oneOutcome, by rw [hc, he]; exact h.errcodeIff, by rw [hc]; exact h.errcodeLe,
    by rw [hb, hd, he]; exact h.busyNoOutcome, by rw [hb, ho]; exact h.busyJobOp⟩

/-- An idle state with no outcome is good. -/
theorem State.Inv.of_idle {s : State} (hb : s.busy = false) (hd : s.done = false) (he : s.err = false)
    (hc : s.errcode = 0) : s.Inv :=
  ⟨by simp [hd], by simp [hc, he], by simp [hc], by simp [hb], by simp [hb]⟩

/-- The errors of the block have the codes 1 to 4 (spec/60_exceptions.md R95). -/
theorem ErrorCode.code_bounds (e : ErrorCode) : e.code ≠ 0 ∧ e.code.toNat ≤ 4 := by
  cases e <;> decide

/-- An error raised while DONE = 0 leaves a good state: BUSY is 0, and the code is that of an error. -/
theorem State.Inv.raise {s : State} (hd : s.done = false) (e : ErrorCode) : (s.raise e).Inv :=
  ⟨by simp [hd], by simpa using e.code_bounds.1, by simpa using e.code_bounds.2, by simp, by simp⟩

theorem State.Inv.answered {s : State} (h : s.Inv) (resp : Response) : (s.answered resp).Inv :=
  h.of_eq rfl rfl rfl rfl rfl

theorem State.Inv.setOverrun {s : State} (h : s.Inv) : s.setOverrun.Inv :=
  h.of_eq rfl rfl rfl rfl rfl

theorem State.Inv.setEnables {s : State} (h : s.Inv) (e d : Bool) : (s.setEnables e d).Inv :=
  h.of_eq rfl rfl rfl rfl rfl

theorem State.Inv.zeroizeOperands {s : State} (h : s.Inv) : s.zeroizeOperands.Inv :=
  h.of_eq rfl rfl rfl rfl rfl

theorem State.Inv.setWord {s : State} (h : s.Inv) (reg : OperandReg) (i : Nat) (v : Word) : (s.setWord reg i v).Inv :=
  h.of_eq (by simp) (by simp) (by simp) (by simp) (by simp)

/-- A reset makes a good state of any state. -/
theorem State.toReset_inv (s : State) : s.toReset.Inv := .of_idle rfl rfl rfl rfl

/-- ERR and ERRCODE are cleared by one strobe, together (spec/43_control.md R93). -/
theorem State.Inv.clearStrobed {s : State} (h : s.Inv) (o e d : Bool) : (s.clearStrobed o e d).Inv := by
  obtain ⟨hone, hiff, hle, hbusy, hop⟩ := h
  refine ⟨?_, ?_, ?_, ?_, hop⟩
  · simp only [clearStrobed_done, clearStrobed_err, Bool.and_eq_true]
    exact fun ⟨⟨hd, _⟩, he, _⟩ => hone ⟨hd, he⟩
  · cases e
    · simpa using hiff
    · simp
  · cases e
    · simpa using hle
    · simp
  · intro hb
    obtain ⟨hd, he⟩ := hbusy hb
    simp [hd, he]

/-- A command word is turned away with the state's flags kept, or it clears the previous outcome first
(spec/40_command.md R64 to R66). -/
theorem State.Inv.issueCommand {s : State} (h : s.Inv) (op : Option (BitVec 4))
    (hop : ∀ o ∈ op, 1 ≤ o.toNat ∧ o.toNat ≤ 4) : (s.issueCommand op).Inv := by
  cases hb : s.busy
  case true =>
    rw [issueCommand_of_busy s op hb]
    exact h.setOverrun
  case false =>
    cases op with
    | none =>
      rw [issueCommand_illegal s hb]
      exact .raise rfl _
    | some o =>
      rw [issueCommand_legal s o hb]
      exact ⟨by simp, by simp, by simp, by simp, fun _ => hop o rfl⟩

/-- A job in flight has no outcome yet, so its completion leaves exactly one (spec/40_command.md R69). -/
theorem State.Inv.finish {s : State} (h : s.Inv) (hb : s.busy = true) (res : JobResult) : (s.finish res).Inv := by
  obtain ⟨hd, he⟩ := h.busyNoOutcome hb
  cases res with
  | ok v => exact ⟨by simp [he], h.errcodeIff, h.errcodeLe, by simp, by simp⟩
  | err e => exact .raise hd e

/-- What a step answers from a good state is good: the operation of each case keeps the invariant. -/
theorem step_inv {s t : State} (h : s.Inv) (ht : step s = .next t) : t.Inv := by
  cases step_cases ht with
  | engine res _ hb _ => exact (h.withTurns s.turns.tail).finish hb res
  | reset _ => exact State.toReset_inv _
  | refused _ _ _ => exact h.answered _
  | read _ _ _ => exact h.answered _
  | command _ _ op _ _ _ hop _ => exact (h.answered _).issueCommand _ (by simpa using hop)
  | illegal _ _ _ _ => exact (h.answered _).issueCommand _ (by simp)
  | status _ _ => exact (h.answered _).clearStrobed _ _ _
  | softReset _ => exact State.toReset_inv _
  | zeroizeBusy e d _ _ => exact ((h.answered _).setEnables e d).setOverrun
  | zeroize e d _ _ => exact ((h.answered _).setEnables e d).zeroizeOperands
  | setie _ _ _ _ => exact (h.answered _).setEnables _ _
  | operandBusy _ _ _ _ _ _ _ => exact (h.answered _).setOverrun
  | operand reg i v _ _ _ _ => exact (h.answered _).setWord reg i v
  | ignored _ _ _ _ _ _ _ => exact h.answered _

/-- Settles O58, by the cases of a step. -/
theorem stepKeepsInvariant : Obligations.StepKeepsInvariant := by
  unfold Obligations.StepKeepsInvariant
  exact fun _ _ => step_inv

/-- Settles O57: the reset state is idle, with no outcome. -/
theorem resetSatisfiesInvariant : Obligations.ResetSatisfiesInvariant := by
  unfold Obligations.ResetSatisfiesInvariant
  exact fun _ => .of_idle rfl rfl rfl rfl

end Sys2Proof.Machine
end

section
/-! The values of the operand registers: what a command writes to R fits in it (spec/10_state.md R20), and a register is
the sum of its words (R21). -/

namespace Sys2Proof.Machine

/-! ### The result of each command -/

/-- MODEXP ends with a reduced value: the loop starts from 1, which is below every modulus it accepts. -/
theorem computeModexp_ok_lt {opw a b n v : Nat} (h : computeModexp opw a b n = .ok v) : v < n := by
  unfold computeModexp at h
  split at h
  · cases h
  · next hn =>
    split at h
    · cases h
    · cases h
      exact modexpLoop_lt _ _ _ _ _ (by omega)

theorem computeModmul_ok_lt {a b n v : Nat} (h : computeModmul a b n = .ok v) : v < n := by
  unfold computeModmul at h
  split at h
  · cases h
  · next hn =>
    split at h
    · cases h
    · cases h
      exact Nat.mod_lt _ (by omega)

/-- MODINV succeeds only for a unit below the modulus, and then with a reduced value. -/
theorem computeModinv_ok_lt {a n v : Nat} (h : computeModinv a n = .ok v) : v < n := by
  have hdom : 2 ≤ n ∧ a < n ∧ Nat.gcd a n = 1 := by
    unfold computeModinv at h
    split at h
    · cases h
    · next hn =>
      split at h
      · cases h
      · next ha =>
        dsimp only at h
        split at h
        · cases h
        · next hr =>
          rw [(euclidLoop_spec a n (n + 1) _ (Nat.lt_succ_self n) (EuclidState.start_good a n)).1, not_not] at hr
          exact ⟨by omega, by omega, hr⟩
  obtain ⟨hn, ha, hg⟩ := hdom
  obtain ⟨d, hd, hlt, -⟩ := computeModinv_of_coprime a n hn ha hg
  cases h.symm.trans hd
  exact hlt

theorem computeGcd_eq (a b : Nat) : computeGcd a b = .ok (Nat.gcd a b) := by
  rw [computeGcd, gcdLoop_eq_gcd _ _ _ (Nat.lt_succ_self b)]

/-- A result is a greatest common divisor, or reduced modulo `n` (spec/10_state.md R20). -/
theorem compute_ok_cases {opw : Nat} {op : BitVec 4} {a b n v : Nat} (h : compute opw op a b n = some (.ok v)) :
    (op = opGcd ∧ v = Nat.gcd a b) ∨ (op ≠ opGcd ∧ v < n) := by
  unfold compute at h
  split at h
  · next hop => exact .inr ⟨hop ▸ by decide, computeModexp_ok_lt (Option.some.inj h)⟩
  split at h
  · next hop => exact .inr ⟨hop ▸ by decide, computeModmul_ok_lt (Option.some.inj h)⟩
  split at h
  · next hop =>
    rw [computeGcd_eq] at h
    cases h
    exact .inl ⟨hop, rfl⟩
  · next hop =>
    split at h
    · exact .inr ⟨hop, computeModinv_ok_lt (Option.some.inj h)⟩
    · cases h

/-- A gcd is at most the larger number; 0 has every number as a divisor, so the bound is not on the smaller one. -/
theorem gcd_le_max (a b : Nat) : Nat.gcd a b ≤ max a b := by
  rcases Nat.eq_zero_or_pos b with rfl | hb
  · simp
  · exact (Nat.gcd_le_right a hb).trans (Nat.le_max_right a b)

/-- The result of a job fits in R (spec/10_state.md R20). -/
theorem State.jobResult_lt {s : State} {v : Nat} (h : s.jobResult = some (.ok v)) : v < 2 ^ s.width.opw := by
  rcases compute_ok_cases h with ⟨-, rfl⟩ | ⟨-, hv⟩
  · exact (gcd_le_max _ _).trans_lt (max_lt (s.x_lt .A) (s.x_lt .B))
  · exact hv.trans (s.x_lt .N)

/-- R reads the result that a completion wrote, whole. -/
theorem State.complete_x_R_of_jobResult {s : State} {v : Nat} (h : s.jobResult = some (.ok v)) :
    (s.complete v).x .R = v := by
  rw [complete_x_R, Nat.mod_eq_of_lt (State.jobResult_lt h)]

/-- Settles O26, by the kinds of result. -/
theorem resultsAreNeverTruncated : Obligations.ResultsAreNeverTruncated := by
  unfold Obligations.ResultsAreNeverTruncated
  intro s v h
  refine ⟨State.jobResult_lt h, State.complete_x_R_of_jobResult h, fun hop => ?_, fun hop => ?_⟩
  · rcases compute_ok_cases h with ⟨hgcd, -⟩ | ⟨-, hv⟩
    · exact absurd hgcd hop
    · exact ⟨hv, Nat.le_sub_one_of_lt (s.x_lt .N)⟩
  · rcases compute_ok_cases h with ⟨-, rfl⟩ | ⟨hne, -⟩
    · refine ⟨gcd_le_max _ _, Nat.le_sub_one_of_lt (max_lt (s.x_lt .A) (s.x_lt .B)), fun hb => ?_, fun hb => ?_⟩
      · rw [hb, Nat.gcd_zero_right]
      · exact ⟨Nat.gcd_dvd_right _ _, Nat.gcd_le_right _ (Nat.pos_of_ne_zero hb)⟩
    · exact absurd hop hne

/-! ### The words of a register -/

/-- The low `k` words of a number add up to its value modulo `2^(32 k)`. -/
theorem sum_words_eq_mod (x k : Nat) :
    ∑ i ∈ Finset.range k, x / 2 ^ (32 * i) % 2 ^ 32 * 2 ^ (32 * i) = x % 2 ^ (32 * k) := by
  induction k with
  | zero => simp [Nat.mod_one]
  | succ k ih => rw [Finset.sum_range_succ, ih, Nat.mul_succ, Nat.pow_add, Nat.mod_mul, Nat.mul_comm (2 ^ (32 * k))]

/-- Settles O44: all the words together leave nothing of the register out. -/
theorem operandIsSumOfWords : Obligations.OperandIsSumOfWords := by
  unfold Obligations.OperandIsSumOfWords
  intro w x
  simp only [wordOf_toNat]
  rw [sum_words_eq_mod]
  exact (Nat.mod_eq_of_lt x.isLt).symm

end Sys2Proof.Machine
end

section
/-! The step that a due turn is, by what is due (spec/00_scope.md R14, spec/20_memory.md R46). -/

namespace Sys2Proof.Machine

variable {s t : State}

/-! ### A write to each part of the window -/

theorem memWrite_status (v : Word) (s : State) :
    memWrite statusOffset v s = .next (s.clearStrobed (v.getLsbD 3) (v.getLsbD 2) (v.getLsbD 1)) := by
  rw [memWrite, windowTarget_status, exec_decodeStatus]

theorem memWrite_softReset {v : Word} (s : State) (h : v.getLsbD 31 = true) :
    memWrite ctrlOffset v s = .next s.toReset := by
  rw [memWrite, windowTarget_ctrl, decodeCtrl, if_pos h, exec, execSoftReset]

/-- ZEROIZE while BUSY = 1 is turned away, except for the enables (spec/43_control.md R90, R91). -/
theorem memWrite_zeroize_of_busy {v : Word} {s : State} (h31 : v.getLsbD 31 = false) (h30 : v.getLsbD 30 = true)
    (hb : s.busy = true) :
    memWrite ctrlOffset v s = .next (s.setEnables (v.getLsbD 1) (v.getLsbD 0)).setOverrun := by
  rw [memWrite, windowTarget_ctrl, decodeCtrl, if_neg (ne_true_of_eq_false h31), if_pos h30, exec, execZeroize, if_pos hb]

theorem memWrite_wordOffset (reg : OperandReg) {i : Nat} (h : i < 64) (v : Word) (s : State) :
    memWrite (wordOffset reg i) v s = .next (s.operandWrite reg i v) := by
  rw [memWrite, (windowTarget_wordOffset reg h).1]

/-- A CMD write issues a command, a legal one exactly when its word decodes (spec/40_command.md R64, R65). -/
theorem memWrite_cmd (v : Word) (s : State) :
    ∃ op, memWrite cmdOffset v s = .next (s.issueCommand op) ∧ (op.isSome = true ↔ ∃ i, decodeCmd v = .ok i) := by
  rw [memWrite, windowTarget_cmd]
  rcases writeCmd_cases v s with ⟨i, op, hd, -, -, -, hw⟩ | ⟨e, hd, hw⟩
  · exact ⟨some op, hw, by simp [hd]⟩
  · exact ⟨none, hw, by simp [hd]⟩

/-- While BUSY = 1 a write to an operand word only sets OVERRUN (spec/40_command.md R66). -/
theorem operandWrite_of_busy (s : State) {reg : OperandReg} {i : Nat} {v : Word} (hreg : reg ≠ .R) (hi : i < s.width.nw)
    (hb : s.busy = true) : s.operandWrite reg i v = s.setOverrun := by
  cases reg with
  | R => exact absurd rfl hreg
  | _ => simp [State.operandWrite, hi, hb]

/-- The words of a window stand at multiples of 4 (spec/20_memory.md R40). -/
theorem wordOffset_aligned (reg : OperandReg) {i : Nat} (h : i < 64) : (wordOffset reg i).toNat % 4 = 0 := by
  rw [(windowTarget_wordOffset reg h).2]
  cases reg <;> simp only [OperandReg.base] <;> omega

/-! ### The step of a due turn -/

theorem step_of_writeDue {off : Offset} {v : Word} (hw : s.writeDue off v) (ha : off.toNat % 4 = 0) :
    step s = memWrite off v (s.answered .written) :=
  step_write (List.eq_cons_of_mem_head? hw) ha

theorem step_of_cmdWrite {v : Word} (hw : s.writeDue cmdOffset v) :
    ∃ op, step s = .next ((s.answered .written).issueCommand op) ∧ (op.isSome = true ↔ ∃ i, decodeCmd v = .ok i) := by
  rw [step_of_writeDue hw (by decide)]
  exact memWrite_cmd v _

theorem step_of_statusWrite {v : Word} (hw : s.writeDue statusOffset v) :
    step s = .next ((s.answered .written).clearStrobed (v.getLsbD 3) (v.getLsbD 2) (v.getLsbD 1)) := by
  rw [step_of_writeDue hw (by decide), memWrite_status]

theorem step_of_softResetDue (h : s.softResetDue) : step s = .next (s.answered .written).toReset := by
  obtain ⟨v, hw, h31⟩ := h
  rw [step_of_writeDue hw (by decide), memWrite_softReset _ h31]

theorem step_of_zeroizeDue_of_busy (h : s.zeroizeDue) (hb : s.busy = true) :
    ∃ e d, step s = .next ((s.answered .written).setEnables e d).setOverrun := by
  obtain ⟨v, hw, h31, h30⟩ := h
  rw [step_of_writeDue hw (by decide)]
  exact ⟨_, _, memWrite_zeroize_of_busy h31 h30 hb⟩

theorem step_of_operandWrite {reg : OperandReg} {i : Nat} {v : Word} (hi : i < 64)
    (hw : s.writeDue (wordOffset reg i) v) : step s = .next ((s.answered .written).operandWrite reg i v) := by
  rw [step_of_writeDue hw (wordOffset_aligned reg hi), memWrite_wordOffset reg hi]

theorem step_of_resetDue (h : s.resetDue = true) : step s = .next (s.withTurns s.turns.tail).toReset := by
  unfold State.resetDue at h
  split at h
  case h_4 rest ht =>
    rw [step_reset ht, ht]
    rfl
  all_goals cases h

/-- When the engine's turn is due, with or without a turn for it in the list, the step is its completion
(spec/40_command.md R69; log entry 3). -/
theorem step_of_engineDue (he : s.engineDue = true) (h : step s = .next t) :
    s.busy = true ∧ ∃ res, s.jobResult = some res ∧ t = (s.withTurns s.turns.tail).finish res := by
  cases step_cases h with
  | engine res _ hb hr => exact ⟨hb, res, hr, rfl⟩
  | reset hr => exact absurd hr (by simp [(engineDue_excludes he).1])
  | refused _ ht _ | read _ ht _ => exact absurd he (by simp [(hostDue_excludes ht).1])
  | command _ _ _ hw _ _ _ _ | illegal _ _ hw _ | status _ hw | setie _ hw _ _ | operandBusy _ _ _ hw _ _ _
  | operand _ _ _ hw _ _ _ | ignored _ _ hw _ _ _ _ => exact absurd hw ((engineDue_excludes he).2 _ _)
  | softReset hz | zeroizeBusy _ _ hz _ | zeroize _ _ hz _ =>
    obtain ⟨_, hw, _⟩ := hz
    exact absurd hw ((engineDue_excludes he).2 _ _)

end Sys2Proof.Machine
end

section
/-! What changes an operand register (spec/10_state.md R18, R19). -/

namespace Sys2Proof.Machine

/-- What may change register `reg` in a step from `s` to `t`: clearing, a host write to one of its words, or, for R, a
successful completion. -/
inductive RegisterCause (s t : State) (reg : OperandReg) : Prop where
  | reset : s.resetDue = true → RegisterCause s t reg
  | softReset : s.softResetDue → RegisterCause s t reg
  | zeroize : s.zeroizeDue → s.busy = false → RegisterCause s t reg
  | hostWrite (i : Nat) (v : Word) : reg ≠ .R → s.busy = false → i < s.width.nw → s.writeDue (wordOffset reg i) v →
      RegisterCause s t reg
  | completion (v : Nat) : reg = .R → s.engineDue = true → s.busy = true → s.jobResult = some (.ok v) →
      t = (s.withTurns s.turns.tail).complete v → RegisterCause s t reg

/-- A completion changes no register but R, and R only when it is a success (spec/40_command.md R69). -/
theorem ok_of_finish_x_ne {s : State} {res : JobResult} {reg : OperandReg} (h : (s.finish res).x reg ≠ s.x reg) :
    reg = .R ∧ ∃ v, res = .ok v := by
  cases res with
  | err e => exact absurd (State.raise_x s e reg) h
  | ok v => exact ⟨by_contra fun hreg => h (finish_x s _ reg hreg), v, rfl⟩

/-- A step changes a register only by one of the causes above. -/
theorem step_register_cause {s t : State} {reg : OperandReg} (h : step s = .next t) (hx : t.x reg ≠ s.x reg) :
    RegisterCause s t reg := by
  cases step_cases h with
  | engine res he hb hr =>
    rw [← State.withTurns_x s s.turns.tail reg] at hx
    obtain ⟨rfl, v, rfl⟩ := ok_of_finish_x_ne hx
    exact .completion v rfl he hb hr rfl
  | reset hr => exact .reset hr
  | softReset hs => exact .softReset hs
  | zeroize _ _ hz hb => exact .zeroize hz hb
  | operand reg' i v hw hreg hi hb =>
    by_cases he : reg = reg'
    · subst he
      exact .hostWrite i v hreg hb hi hw
    · exact absurd ((setWord_x_other _ _ _ i v he).trans (State.answered_x s _ reg)) hx
  | _ => exact absurd (by simp) hx

/-- Settles O51, by the causes of a change of A, B or N. -/
theorem onlyHostChangesOperands : Obligations.OnlyHostChangesOperands := by
  unfold Obligations.OnlyHostChangesOperands
  intro s t reg hreg h hx
  cases step_register_cause h hx with
  | reset hr => exact .inl hr
  | softReset hs => exact .inr (.inl hs)
  | zeroize hz hb => exact .inr (.inr (.inl ⟨hz, hb⟩))
  | hostWrite i v _ hb hi hw => exact .inr (.inr (.inr ⟨hb, i, v, hi, hw⟩))
  | completion _ hR _ _ _ _ => exact absurd hR hreg

/-- A host write to the window of R is ignored, without an error (spec/10_state.md R19). -/
theorem step_write_R {s : State} {i : Nat} {v : Word} (hi : i < 64) (hw : s.writeDue (wordOffset .R i) v) :
    step s = .next (s.answered .written) :=
  step_of_operandWrite hi hw

/-- Settles O52: R takes no host write, and the result a completion writes to it fits (R20). -/
theorem onlyCompletionOrClearingChangesR : Obligations.OnlyCompletionOrClearingChangesR := by
  unfold Obligations.OnlyCompletionOrClearingChangesR
  refine ⟨fun s i v rest hi ht => ?_, fun s t h hx => ?_⟩
  · have hw : s.writeDue (wordOffset .R i) v := by rw [State.writeDue, ht]; rfl
    rw [step_write_R hi hw, State.answered, ht]
    rfl
  · cases step_register_cause h hx with
    | reset hr => exact .inl hr
    | softReset hs => exact .inr (.inl hs)
    | zeroize hz hb => exact .inr (.inr (.inl ⟨hz, hb⟩))
    | hostWrite _ _ hR _ _ _ => exact absurd rfl hR
    | completion v _ he hb hr ht =>
      subst ht
      have hv : ((s.withTurns s.turns.tail).complete v).x .R = v := State.complete_x_R_of_jobResult hr
      exact .inr (.inr (.inr ⟨he, hb, rfl, rfl, by rw [hv, hr]⟩))

end Sys2Proof.Machine
end

section
/-! What sets and what clears each flag of STATUS, and the interrupt output (spec/10_state.md R27 to R31, R35).  For each
flag, the cases of a step give the causes of a change; that a cause has its effect is the step of the turn that is due. -/

namespace Sys2Proof.Machine

variable {s t : State}

/-- SOFT_RESET and a hardware reset both end in a reset state (spec/70_reset_and_hazards.md R109). -/
theorem step_to_reset (h : step s = .next t) (hr : s.softResetDue ∨ s.resetDue = true) : ∃ u, t = State.toReset u := by
  rcases hr with hr | hr
  · cases h.symm.trans (step_of_softResetDue hr)
    exact ⟨_, rfl⟩
  · cases h.symm.trans (step_of_resetDue hr)
    exact ⟨_, rfl⟩

/-! ### BUSY (R27) -/

/-- The words 1 to 4 are the legal command words (spec/30_encoding.md R58). -/
theorem exists_decodeCmd_of_legal {v : Word} (h : v = 1 ∨ v = 2 ∨ v = 3 ∨ v = 4) : ∃ i, decodeCmd v = .ok i := by
  rcases h with rfl | rfl | rfl | rfl <;> exact ⟨_, rfl⟩

theorem busy_set_cause (h : step s = .next t) (hs : s.busy = false) (ht : t.busy = true) :
    s.writeDue cmdOffset 1 ∨ s.writeDue cmdOffset 2 ∨ s.writeDue cmdOffset 3 ∨ s.writeDue cmdOffset 4 := by
  cases step_cases h with
  | command v _ op hw _ _ hop hv =>
    obtain ⟨hlo, hhi⟩ := hop
    rw [hv] at hw
    interval_cases op.toNat
    exacts [.inl hw, .inr (.inl hw), .inr (.inr (.inl hw)), .inr (.inr (.inr hw))]
  | engine _ _ hb _ => simp [hb] at hs
  | _ => simp [hs] at ht

theorem busy_set_of_legal {v : Word} (h : step s = .next t) (hv : v = 1 ∨ v = 2 ∨ v = 3 ∨ v = 4)
    (hw : s.writeDue cmdOffset v) : t.busy = true := by
  obtain ⟨op, hst, hop⟩ := step_of_cmdWrite hw
  cases h.symm.trans hst
  simp [hop.2 (exists_decodeCmd_of_legal hv)]

theorem busy_clear_cause (h : step s = .next t) (hs : s.busy = true) (ht : t.busy = false) :
    s.engineDue = true ∨ s.resetDue = true ∨ s.softResetDue := by
  cases step_cases h with
  | engine _ he _ _ => exact .inl he
  | reset hr => exact .inr (.inl hr)
  | softReset hz => exact .inr (.inr hz)
  | _ => simp [hs] at ht

/-- Settles O53: the causes, and that each has its effect. -/
theorem whatChangesBusy : Obligations.WhatChangesBusy := by
  unfold Obligations.WhatChangesBusy
  refine fun s t h => ⟨fun hs => ⟨busy_set_cause h hs, ?_⟩, fun hs => ⟨busy_clear_cause h hs, ?_⟩⟩
  · rintro (hw | hw | hw | hw) <;> exact busy_set_of_legal h (by simp) hw
  · rintro (he | hr)
    · obtain ⟨-, res, -, rfl⟩ := step_of_engineDue he h
      exact finish_busy _ res
    · obtain ⟨u, rfl⟩ := step_to_reset h hr.symm
      rfl

/-! ### DONE (R28) -/

/-- A state with an outcome has no job in flight. -/
theorem State.Inv.idle_of_outcome (hs : s.Inv) (h : s.done = true ∨ s.err = true) : s.busy = false := by
  by_contra hb
  obtain ⟨hd, he⟩ := hs.busyNoOutcome (by simpa using hb)
  simp [hd, he] at h

theorem done_set_cause (h : step s = .next t) (hs : s.done = false) (ht : t.done = true) :
    s.engineDue = true ∧ ∃ v, s.jobResult = some (.ok v) := by
  cases step_cases h with
  | engine res he _ hr =>
    cases res with
    | ok v => exact ⟨he, v, hr⟩
    | err e => simp [hs] at ht
  | _ => simp [hs] at ht

theorem done_set_of_success {v : Nat} (hi : s.Inv) (h : step s = .next t) (he : s.engineDue = true)
    (hr : s.jobResult = some (.ok v)) : s.done = false ∧ t.done = true := by
  obtain ⟨hb, res, hres, rfl⟩ := step_of_engineDue he h
  cases hr.symm.trans hres
  exact ⟨(hi.busyNoOutcome hb).1, rfl⟩

theorem done_clear_cause (h : step s = .next t) (hs : s.done = true) (ht : t.done = false) :
    (∃ v, s.writeDue cmdOffset v) ∨ (∃ v, s.writeDue statusOffset v ∧ v.getLsbD 1 = true) ∨ s.softResetDue ∨
      s.resetDue = true := by
  cases step_cases h with
  | engine res _ _ _ => cases res <;> simp [hs] at ht
  | command v _ _ hw _ _ _ _ | illegal v _ hw _ => exact .inl ⟨v, hw⟩
  | status v hw => exact .inr (.inl ⟨v, hw, by simpa [hs] using ht⟩)
  | softReset hz => exact .inr (.inr (.inl hz))
  | reset hr => exact .inr (.inr (.inr hr))
  | _ => simp [hs] at ht

theorem done_clear_of_cmdWrite {v : Word} (hb : s.busy = false) (h : step s = .next t) (hw : s.writeDue cmdOffset v) :
    t.done = false := by
  obtain ⟨op, hst, -⟩ := step_of_cmdWrite hw
  cases h.symm.trans hst
  simp [hb]

/-- Settles O54: the causes, and that each has its effect; R28's last sentence is a part of the invariant. -/
theorem whatChangesDone : Obligations.WhatChangesDone := by
  unfold Obligations.WhatChangesDone
  refine fun s t hi h => ⟨⟨fun ⟨hs, ht⟩ => done_set_cause h hs ht, fun ⟨he, v, hr⟩ => done_set_of_success hi h he hr⟩,
    fun hs => ⟨done_clear_cause h hs, ?_⟩, (step_inv hi h).oneOutcome⟩
  rintro (⟨v, hw⟩ | ⟨v, hw, h1⟩ | hr)
  · exact done_clear_of_cmdWrite (hi.idle_of_outcome (.inl hs)) h hw
  · cases h.symm.trans (step_of_statusWrite hw)
    rw [State.clearStrobed_done, h1, Bool.not_true, Bool.and_false]
  · obtain ⟨u, rfl⟩ := step_to_reset h hr
    rfl

/-! ### ERR (R29, R30) -/

theorem err_set_cause (h : step s = .next t) (hs : s.err = false) (ht : t.err = true) :
    (s.engineDue = true ∧ ∃ e, s.jobResult = some (.err e)) ∨
    (s.busy = false ∧ ∃ v, s.writeDue cmdOffset v ∧ ∃ e, decodeCmd v = .error e) := by
  cases step_cases h with
  | engine res he _ hr =>
    cases res with
    | ok v => simp [hs] at ht
    | err e => exact .inl ⟨he, e, hr⟩
  | illegal v e hw hd => exact .inr ⟨by simpa [hs] using ht, v, hw, e, hd⟩
  | _ => simp [hs] at ht

theorem err_set_of_failure {e : ErrorCode} (h : step s = .next t) (he : s.engineDue = true)
    (hr : s.jobResult = some (.err e)) : t.err = true := by
  obtain ⟨-, res, hres, rfl⟩ := step_of_engineDue he h
  cases hr.symm.trans hres
  rfl

/-- A CMD write while idle leaves ERR set exactly when its word is illegal. -/
theorem err_of_cmdWrite {v : Word} (hb : s.busy = false) (h : step s = .next t) (hw : s.writeDue cmdOffset v) :
    t.err = false ↔ ∃ i, decodeCmd v = .ok i := by
  obtain ⟨op, hst, hop⟩ := step_of_cmdWrite hw
  cases h.symm.trans hst
  rw [← hop]
  cases op <;> simp [hb]

theorem err_clear_cause (h : step s = .next t) (hs : s.err = true) (ht : t.err = false) :
    (∃ v i, s.writeDue cmdOffset v ∧ decodeCmd v = .ok i) ∨
    (∃ v, s.writeDue statusOffset v ∧ v.getLsbD 2 = true) ∨ s.softResetDue ∨ s.resetDue = true := by
  cases step_cases h with
  | engine res _ _ _ => cases res <;> simp [hs] at ht
  | command v i _ hw hd _ _ _ => exact .inl ⟨v, i, hw, hd⟩
  | status v hw => exact .inr (.inl ⟨v, hw, by simpa [hs] using ht⟩)
  | softReset hz => exact .inr (.inr (.inl hz))
  | reset hr => exact .inr (.inr (.inr hr))
  | _ => simp [hs] at ht

/-- Settles O55: the causes, and that each has its effect; R30 is a part of the invariant. -/
theorem whatChangesErr : Obligations.WhatChangesErr := by
  unfold Obligations.WhatChangesErr
  refine fun s t hi h => ⟨fun hs => ⟨err_set_cause h hs, ?_⟩, fun hs => ⟨err_clear_cause h hs, ?_⟩,
    (step_inv hi h).errcodeIff.symm⟩
  · rintro (⟨he, e, hr⟩ | ⟨hb, v, hw, e, hd⟩)
    · exact err_set_of_failure h he hr
    · by_contra ht
      obtain ⟨i, hi⟩ := (err_of_cmdWrite hb h hw).1 (by simpa using ht)
      cases hd.symm.trans hi
  · rintro (⟨v, i, hw, hd⟩ | ⟨v, hw, h2⟩ | hr)
    · exact (err_of_cmdWrite (hi.idle_of_outcome (.inr hs)) h hw).2 ⟨i, hd⟩
    · cases h.symm.trans (step_of_statusWrite hw)
      rw [State.clearStrobed_err, h2, Bool.not_true, Bool.and_false]
    · obtain ⟨u, rfl⟩ := step_to_reset h hr
      rfl

/-! ### OVERRUN (R31) -/

theorem overrun_set_cause (h : step s = .next t) (hs : s.overrun = false) (ht : t.overrun = true) :
    s.busy = true ∧ ((∃ v, s.writeDue cmdOffset v) ∨ s.zeroizeDue ∨
      ∃ reg i v, reg ≠ OperandReg.R ∧ i < s.width.nw ∧ s.writeDue (wordOffset reg i) v) := by
  cases step_cases h with
  | engine res _ _ _ => cases res <;> simp [hs] at ht
  | command v _ _ hw _ _ _ _ | illegal v _ hw _ => exact ⟨by simpa [hs] using ht, .inl ⟨v, hw⟩⟩
  | zeroizeBusy _ _ hz hb => exact ⟨hb, .inr (.inl hz)⟩
  | operandBusy reg i v hw hreg hi hb => exact ⟨hb, .inr (.inr ⟨reg, i, v, hreg, hi, hw⟩)⟩
  | _ => simp [hs] at ht

theorem overrun_set_of_busy (hb : s.busy = true) (h : step s = .next t)
    (hc : (∃ v, s.writeDue cmdOffset v) ∨ s.zeroizeDue ∨
      ∃ reg i v, reg ≠ OperandReg.R ∧ i < s.width.nw ∧ s.writeDue (wordOffset reg i) v) : t.overrun = true := by
  obtain ⟨v, hw⟩ | hz | ⟨reg, i, v, hreg, hi, hw⟩ := hc
  · obtain ⟨op, hst, -⟩ := step_of_cmdWrite hw
    cases h.symm.trans hst
    simp [hb]
  · obtain ⟨e, d, hst⟩ := step_of_zeroizeDue_of_busy hz hb
    cases h.symm.trans hst
    rfl
  · cases h.symm.trans (step_of_operandWrite (hi.trans_le (nw_le _)) hw)
    rw [operandWrite_of_busy (s.answered .written) hreg hi hb]
    rfl

theorem overrun_clear_cause (h : step s = .next t) (hs : s.overrun = true) (ht : t.overrun = false) :
    (∃ v, s.writeDue statusOffset v ∧ v.getLsbD 3 = true) ∨ s.softResetDue ∨ s.resetDue = true := by
  cases step_cases h with
  | engine res _ _ _ => cases res <;> simp [hs] at ht
  | status v hw => exact .inl ⟨v, hw, by simpa [hs] using ht⟩
  | softReset hz => exact .inr (.inl hz)
  | reset hr => exact .inr (.inr hr)
  | _ => simp [hs] at ht

/-- Settles O56: the causes, and that each has its effect; a result is computed without OVERRUN. -/
theorem overrunIsSticky : Obligations.OverrunIsSticky := by
  unfold Obligations.OverrunIsSticky
  refine ⟨fun s t h => ⟨fun hs => ⟨overrun_set_cause h hs, fun ⟨hb, hc⟩ => overrun_set_of_busy hb h hc⟩,
    fun hs => ⟨overrun_clear_cause h hs, ?_⟩⟩, fun _ _ => rfl⟩
  rintro (⟨v, hw, h3⟩ | hr)
  · cases h.symm.trans (step_of_statusWrite hw)
    rw [State.clearStrobed_overrun, h3, Bool.not_true, Bool.and_false]
  · obtain ⟨u, rfl⟩ := step_to_reset h hr
    rfl

/-! ### The interrupt output (R35) -/

/-- The interrupt output follows the two outcome flags, each under its own enable. -/
theorem irq_eq_true_iff : s.irq = true ↔ (s.done = true ∧ s.ieDone = true) ∨ (s.err = true ∧ s.ieErr = true) := by
  simp [State.irq]

/-- With no outcome pending there is no interrupt. -/
theorem irq_of_no_outcome (hd : s.done = false) (he : s.err = false) : s.irq = false := by
  simp [State.irq, hd, he]

/-- Each of the four commands issues its opcode (spec/40_command.md R64). -/
theorem exec_of_commandOp {i : Instr} {op : BitVec 4} (s : State) (h : commandOp i = some op) :
    exec i s = .next (s.issueCommand (some op)) := by
  cases i <;> cases h <;> rfl

/-- Settles O38, by the flags and enables that each of these transitions leaves. -/
theorem interruptOutputFollowsFlagsAndEnables : Obligations.InterruptOutputFollowsFlagsAndEnables := by
  unfold Obligations.InterruptOutputFollowsFlagsAndEnables
  intro s k ieErr ieDone overrun busy
  refine ⟨?_, ?_, fun hd => ?_, fun he => ?_, fun hb i op hop => ?_, fun hb hd he => ⟨fun v hr => ?_, fun e hr => ?_⟩⟩
  · exact ⟨_, rfl, irq_of_no_outcome (by simp) (by simp)⟩
  · exact ⟨_, rfl, by simp [State.irq], rfl, rfl, rfl, rfl, rfl⟩
  · exact ⟨_, rfl, irq_eq_true_iff.2 (.inl ⟨hd, rfl⟩)⟩
  · exact ⟨_, rfl, irq_eq_true_iff.2 (.inr ⟨he, rfl⟩)⟩
  · exact ⟨_, exec_of_commandOp s hop, irq_of_no_outcome (by simp [hb]) (by simp [hb])⟩
  · exact ⟨_, engineStep_of_jobResult hb hr, by simp [State.irq, he]⟩
  · exact ⟨_, engineStep_of_jobResult hb hr, by simp [State.irq, hd]⟩

end Sys2Proof.Machine
end

section
/-! Noninterference: as long as the engine takes no turn, nothing the host can see depends on A, B and N
(spec/10_state.md R18). -/

namespace Sys2Proof.Machine

/-- The state with A, B and N put to 0: two states agree on all the rest exactly when this makes them equal. -/
def State.hideOperands (s : State) : State := { s with a := 0, b := 0, n := 0 }

@[simp] theorem State.hideOperands_turns (s : State) : s.hideOperands.turns = s.turns := rfl
@[simp] theorem State.hideOperands_response (s : State) : s.hideOperands.response = s.response := rfl

/-- `f` answers a next state from every state, and what it does to the rest of the state does not depend on A, B and N. -/
def BlindToOperands (f : State → Host.Outcome State Fault Refusal) : Prop :=
  ∀ s, ∃ t u, f s = .next t ∧ f s.hideOperands = .next u ∧ u.hideOperands = t.hideOperands

/-- An update whose effect on the rest of the state does not depend on A, B and N. -/
theorem BlindToOperands.of_update {f : State → Host.Outcome State Fault Refusal} (g : State → State)
    (hf : ∀ s, f s = .next (g s)) (hg : ∀ s, (g s.hideOperands).hideOperands = (g s).hideOperands) : BlindToOperands f :=
  fun s => ⟨g s, g s.hideOperands, hf s, hf _, hg s⟩

theorem hideOperands_issueCommand (s : State) (op : Option (BitVec 4)) :
    (s.hideOperands.issueCommand op).hideOperands = (s.issueCommand op).hideOperands := by
  cases hb : s.busy
  case true => rw [issueCommand_of_busy s op hb, issueCommand_of_busy s.hideOperands op hb]; rfl
  case false =>
    cases op with
    | none => rw [issueCommand_illegal s hb, issueCommand_illegal s.hideOperands hb]; rfl
    | some o => rw [issueCommand_legal s o hb, issueCommand_legal s.hideOperands o hb]; rfl

/-- No instruction reads A, B or N: only the completion step does. -/
theorem exec_blind (i : Instr) : BlindToOperands (exec i) := by
  cases i with
  | modexp => exact .of_update _ (fun _ => rfl) fun s => hideOperands_issueCommand s (some opModexp)
  | modmul => exact .of_update _ (fun _ => rfl) fun s => hideOperands_issueCommand s (some opModmul)
  | gcd => exact .of_update _ (fun _ => rfl) fun s => hideOperands_issueCommand s (some opGcd)
  | modinv => exact .of_update _ (fun _ => rfl) fun s => hideOperands_issueCommand s (some opModinv)
  | softReset _ => exact .of_update State.toReset (fun _ => rfl) fun _ => rfl
  | setie _ e d => exact .of_update (·.setEnables e d) (fun _ => rfl) fun _ => rfl
  | clrst _ o e d _ => exact .of_update (·.clearStrobed o e d) (fun _ => rfl) fun _ => rfl
  | zeroize _ e d =>
    intro s
    simp only [exec, execZeroize]
    split
    · next hb => exact ⟨_, _, rfl, if_pos hb, rfl⟩
    · next hb => exact ⟨_, _, rfl, if_neg hb, rfl⟩

theorem hideOperands_operandWrite (s : State) (reg : OperandReg) (i : Nat) (v : Word) :
    (s.hideOperands.operandWrite reg i v).hideOperands = (s.operandWrite reg i v).hideOperands := by
  have hb : s.hideOperands.busy = s.busy := rfl
  have hw : s.hideOperands.width = s.width := rfl
  cases reg <;> simp only [State.operandWrite, hb, hw]
  case R => rfl
  all_goals
    split
    · split <;> rfl
    · rfl

theorem writeCmd_blind (v : Word) : BlindToOperands (writeCmd v) := by
  unfold writeCmd
  split
  · exact exec_blind _
  · exact .of_update _ (fun _ => rfl) fun s => hideOperands_issueCommand s none

/-- A write changes the rest of the state in the same way whatever A, B and N hold. -/
theorem memWrite_blind (off : Offset) (v : Word) : BlindToOperands (memWrite off v) := by
  unfold memWrite
  cases windowTarget off with
  | cmd => exact writeCmd_blind v
  | status => exact exec_blind _
  | ctrl => exact exec_blind _
  | operandWord reg i => exact .of_update _ (fun _ => rfl) fun s => hideOperands_operandWrite s reg i v
  | id | config | reserved => exact .of_update id (fun _ => rfl) fun _ => rfl

/-- No window of the block reads A, B or N back (spec/10_state.md R18). -/
theorem memRead_hideOperands (off : Offset) (s : State) : memRead off s.hideOperands = memRead off s := by
  unfold memRead
  cases windowTarget off with
  | operandWord reg i => cases reg <;> rfl
  | _ => rfl

theorem hostAccess_blind (tr : Transfer) : BlindToOperands (hostAccess tr) := by
  unfold hostAccess
  split
  · split
    · refine .of_update _ (fun _ => rfl) fun s => ?_
      rw [memRead_hideOperands]
      rfl
    · next v _ => exact fun s => memWrite_blind tr.off v (s.respond .written)
  · exact .of_update (·.respond (refusedResponse tr)) (fun _ => rfl) fun _ => rfl

/-- A step takes off the turn that was due. -/
theorem step_turns {s t : State} (h : step s = .next t) : t.turns = s.turns.tail := by
  cases step_cases h <;> simp

/-- A due turn that is not the engine's does the same to the rest of the state whatever A, B and N hold. -/
theorem step_hideOperands {s : State} {turn : Turn} {rest : List Turn} (hs : s.turns = turn :: rest)
    (he : turn ≠ .engine) :
    ∃ t u, step s = .next t ∧ step s.hideOperands = .next u ∧ u.hideOperands = t.hideOperands ∧ t.turns = rest := by
  have hs' : s.hideOperands.turns = turn :: rest := hs
  cases turn with
  | engine => exact absurd rfl he
  | reset => exact ⟨_, _, step_reset hs, step_reset hs', rfl, rfl⟩
  | host tr =>
    obtain ⟨t, u, ht, hu, htu⟩ := hostAccess_blind tr (s.withTurns rest)
    rw [← step_host hs] at ht
    exact ⟨t, u, ht, (step_host hs').trans hu, htu, by rw [step_turns ht, hs]; rfl⟩

/-- The answers of a run in which the engine takes no turn do not depend on A, B and N. -/
theorem answers_hideOperands (k : Nat) (s : State) (hk : k ≤ s.turns.length) (hs : ∀ turn ∈ s.turns, turn ≠ .engine) :
    answers k s.hideOperands = answers k s := by
  induction k generalizing s with
  | zero => rfl
  | succ k ih =>
    obtain ⟨turn, rest, hturns⟩ := List.exists_cons_of_length_pos (Nat.zero_lt_of_lt hk)
    rw [hturns] at hk hs
    obtain ⟨t, u, ht, hu, htu, hrest⟩ := step_hideOperands hturns (hs turn (by simp))
    have hresp : u.response = t.response := by simpa using congrArg State.response htu
    have hut : u.turns = t.turns := by simpa using congrArg State.turns htu
    have hk' : k ≤ rest.length := by simpa using hk
    have hrest' : ∀ turn ∈ rest, turn ≠ .engine := fun turn h => hs turn (by simp [h])
    simp only [answers, ht, hu, hresp]
    rw [← ih t (by rwa [hrest]) (by rwa [hrest]), ← htu, ih u (by rwa [hut, hrest]) (by rwa [hut, hrest])]

/-- Settles O47: the two states are the same once A, B and N are hidden. -/
theorem answersIgnoreOperandsUntilCompletion : Obligations.AnswersIgnoreOperandsUntilCompletion := by
  unfold Obligations.AnswersIgnoreOperandsUntilCompletion
  intro s a b n hs
  rw [← answers_hideOperands _ { s with a := a, b := b, n := n } le_rfl hs, ← answers_hideOperands _ s le_rfl hs]
  rfl

end Sys2Proof.Machine
end

section
/-! The register window: what a host access does at each offset (spec/20_memory.md R39 to R46), and what each instruction
leaves unchanged in the bytes of the window (R39, R42). -/

namespace Sys2Proof.Machine

/-! ### Instructions -/

/-- Settles O9: no meaning stops, ZEROIZE neither while BUSY = 1 nor while BUSY = 0. -/
theorem everyInstructionAnswers : Obligations.EveryInstructionAnswers := by
  unfold Obligations.EveryInstructionAnswers
  exact exec_answers

/-- Settles O7: a write that decodes stands at a multiple of 4, so it is accepted, and its effect is the instruction's. -/
theorem stepRunsDecodedInstruction : Obligations.StepRunsDecodedInstruction := by
  unfold Obligations.StepRunsDecodedInstruction
  intro s off v rest i ht hd
  obtain ⟨hexec, ha⟩ := memWrite_of_decode { s with turns := rest, response := some .written } hd
  rw [step_write ht ha, hexec]

/-! ### Refused accesses (R43) -/

/-- The step of a due access that the block refuses: the bus error, and nothing else (log entry 5). -/
theorem step_refused {s : State} {tr : Transfer} {rest : List Turn} (ht : s.turns = .host tr :: rest)
    (h : tr.size ≠ .word ∨ tr.off.toNat % 4 ≠ 0) :
    step s = .next { s with turns := rest, response := some (refusedResponse tr) } := by
  have hw : ¬ tr.wellFormed = true := by
    rw [wellFormed_iff]
    exact fun ⟨hs, ha⟩ => h.elim (· hs) (· ha)
  rw [step_host ht, hostAccess, if_neg hw]
  rfl

/-- Settles O43: the bus error is the answer written out. -/
theorem refusedAccessChangesNothing : Obligations.RefusedAccessChangesNothing := by
  unfold Obligations.RefusedAccessChangesNothing
  intro s tr rest ht h
  rw [step_refused ht h]
  rfl

/-! ### Ignored writes (R40, R41) -/

/-- A write to R, or past `NW`, is ignored (spec/20_memory.md R40, spec/10_state.md R19). -/
theorem operandWrite_ignored {s : State} {reg : OperandReg} {i : Nat} (v : Word) (h : reg = .R ∨ s.width.nw ≤ i) :
    s.operandWrite reg i v = s := by
  rcases operandWrite_cases s reg i v with ⟨-, he⟩ | ⟨hreg, hi, -⟩ | ⟨hreg, hi, -⟩
  · exact he
  · exact absurd h (by simp [hreg, hi])
  · exact absurd h (by simp [hreg, hi])

theorem eq_wordOffset_of_toNat {off : Offset} {reg : OperandReg} {i : Nat} (hi : i < 64)
    (h : off.toNat = reg.base + 4 * i) : off = wordOffset reg i :=
  BitVec.eq_of_toNat_eq (h.trans (windowTarget_wordOffset reg hi).2.symm)

/-- Past the window of N stand the window of R and reserved offsets (R39). -/
theorem windowTarget_of_ge {off : Offset} (h : 0x400 ≤ off.toNat) :
    windowTarget off = .reserved ∨ ∃ i, windowTarget off = .operandWord .R i := by
  have hne : ∀ k, k < 0x400 → off.toNat ≠ k := by omega
  have hlt : ∀ k, k ≤ 0x400 → ¬ off.toNat < k := by omega
  by_cases hR : off.toNat < 0x500
  · exact .inr ⟨(off.toNat - 0x400) / 4, by simp [windowTarget, hne, hlt, hR]⟩
  · exact .inl (by simp [windowTarget, hne, hlt, hR])

/-- ID, CONFIG, the reserved offsets, the words past `NW` and all that stands from R on take no write. -/
theorem memWrite_ignored {off : Offset} (v : Word) (s : State)
    (h : off.toNat = 0x000 ∨ off.toNat = 0x004 ∨ (0x014 ≤ off.toNat ∧ off.toNat < 0x100) ∨
      (∃ reg i, s.width.nw ≤ i ∧ i < 64 ∧ off.toNat = OperandReg.base reg + 4 * i) ∨ 0x400 ≤ off.toNat) :
    memWrite off v s = .next s := by
  rcases h with h | h | ⟨hlo, hhi⟩ | ⟨reg, i, hi, hi64, h⟩ | h
  · have hx : windowTarget off = .id := by simp [windowTarget, h]
    rw [memWrite, hx]
  · have hx : windowTarget off = .config := by simp [windowTarget, h]
    rw [memWrite, hx]
  · have hx : windowTarget off = .reserved := by
      have hne : ∀ k, k < 0x014 → off.toNat ≠ k := by omega
      simp [windowTarget, hne, hhi]
    rw [memWrite, hx]
  · rw [eq_wordOffset_of_toNat hi64 h, memWrite_wordOffset reg hi64, operandWrite_ignored v (.inr hi)]
  · rcases windowTarget_of_ge h with hx | ⟨i, hx⟩
    · rw [memWrite, hx]
    · rw [memWrite, hx]
      rfl

/-- Settles O42: the access is accepted, and ignored. -/
theorem readOnlyAndReservedWritesAreIgnored : Obligations.ReadOnlyAndReservedWritesAreIgnored := by
  unfold Obligations.ReadOnlyAndReservedWritesAreIgnored
  intro s off v rest ht ha h
  rw [step_write ht ha]
  exact memWrite_ignored v _ h

/-! ### What a read returns (R45) -/

theorem toNat_append_ofBool {w : Nat} (x : BitVec w) (b : Bool) : (x ++ BitVec.ofBool b).toNat = 2 * x.toNat + b.toNat := by
  rw [BitVec.toNat_append, ← Nat.shiftLeft_add_eq_or_of_lt (BitVec.isLt _), Nat.shiftLeft_eq, BitVec.toNat_ofBool,
    Nat.mul_comm, Nat.pow_one]

theorem statusWord_toNat (s : State) : (statusWord s).toNat =
    s.busy.toNat + 2 * s.done.toNat + 4 * s.err.toNat + 8 * s.overrun.toNat + 16 * s.errcode.toNat := by
  rw [statusWord, toNat_append_ofBool, toNat_append_ofBool, toNat_append_ofBool, toNat_append_ofBool,
    BitVec.toNat_append, BitVec.toNat_zero, Nat.zero_shiftLeft, Nat.zero_or]
  omega

theorem ctrlWord_toNat (s : State) : (ctrlWord s).toNat = s.ieDone.toNat + 2 * s.ieErr.toNat := by
  rw [ctrlWord, toNat_append_ofBool, toNat_append_ofBool, BitVec.toNat_zero]
  omega

/-- The largest OPW, 2048, fits in its 12 bits of CONFIG (spec/10_state.md R24). -/
theorem configWord_toNat (w : Width) : (configWord w).toNat = 0x00010000 + w.opw := by
  have := opw_le w
  rw [configWord, BitVec.toNat_append, ← Nat.shiftLeft_add_eq_or_of_lt (BitVec.isLt _), BitVec.toNat_ofNat,
    Nat.mod_eq_of_lt (by omega)]
  rfl

theorem toNat_of_windowTarget_id {off : Offset} (h : windowTarget off = .id) : off.toNat = 0x000 := by
  unfold windowTarget at h
  repeat' split at h
  all_goals cases h
  assumption

theorem toNat_of_windowTarget_config {off : Offset} (h : windowTarget off = .config) : off.toNat = 0x004 := by
  unfold windowTarget at h
  repeat' split at h
  all_goals cases h
  assumption

theorem memRead_status (s : State) : memRead statusOffset s = statusWord s := by
  rw [memRead, windowTarget_status]

theorem memRead_ctrl (s : State) : memRead ctrlOffset s = ctrlWord s := by
  rw [memRead, windowTarget_ctrl]

theorem memRead_wordOffset (reg : OperandReg) {i : Nat} (h : i < 64) (s : State) :
    memRead (wordOffset reg i) s = s.readableWord reg i := by
  rw [memRead, (windowTarget_wordOffset reg h).1]

theorem readableWord_R_toNat (s : State) {i : Nat} (h : i < s.width.nw) :
    (s.readableWord .R i).toNat = s.x .R / 2 ^ (32 * i) % 2 ^ 32 := by
  rw [State.readableWord, if_pos h, wordOf_toNat]
  rfl

/-- A, B and N read as 0, and so does R past `NW` (spec/10_state.md R18, spec/20_memory.md R40). -/
theorem readableWord_eq_zero (s : State) {reg : OperandReg} {i : Nat} (h : reg = .R → ¬ i < s.width.nw) :
    s.readableWord reg i = 0 := by
  cases reg with
  | R => exact if_neg (h rfl)
  | _ => rfl

/-- Where no readable register stands, a read returns 0 (R40, R41, R45). -/
theorem memRead_eq_zero {off : Offset} (s : State) (ha : off.toNat % 4 = 0) (hid : off.toNat ≠ 0x000)
    (hconfig : off.toNat ≠ 0x004) (hstatus : off.toNat ≠ 0x00C) (hctrl : off.toNat ≠ 0x010)
    (hR : ∀ i, i < s.width.nw → off.toNat ≠ 0x400 + 4 * i) : memRead off s = 0 := by
  unfold memRead
  cases hx : windowTarget off with
  | id => exact absurd (toNat_of_windowTarget_id hx) hid
  | config => exact absurd (toNat_of_windowTarget_config hx) hconfig
  | status => exact absurd (congrArg BitVec.toNat (eq_statusOffset hx)) hstatus
  | ctrl => exact absurd (congrArg BitVec.toNat (eq_ctrlOffset hx)) hctrl
  | cmd | reserved => rfl
  | operandWord reg i =>
    obtain ⟨hi, rfl⟩ := eq_wordOffset_of_target ha hx
    refine readableWord_eq_zero s ?_
    rintro rfl hnw
    exact hR i hnw (windowTarget_wordOffset .R hi).2

/-- Settles O39, register by register. -/
theorem hostReadReturnsWindowMap : Obligations.HostReadReturnsWindowMap := by
  unfold Obligations.HostReadReturnsWindowMap
  refine ⟨fun s tr rest ht hdir h => ?_, fun s off rest ht ha => ⟨memRead off s, step_read ht ha, ?_⟩⟩
  · rw [step_refused ht h, refusedResponse, hdir]
  · refine ⟨fun h => ?_, fun h => ?_, fun h => ?_, fun h => ?_, fun i hi h => ?_, memRead_eq_zero s ha⟩
    · have hx : windowTarget off = .id := by simp [windowTarget, h]
      rw [memRead, hx]
      rfl
    · have hx : windowTarget off = .config := by simp [windowTarget, h]
      rw [memRead, hx]
      exact configWord_toNat s.width
    · have hoff : off = statusOffset := BitVec.eq_of_toNat_eq h
      rw [hoff, memRead_status, statusWord_toNat]
    · have hoff : off = ctrlOffset := BitVec.eq_of_toNat_eq h
      rw [hoff, memRead_ctrl, ctrlWord_toNat]
    · have hi64 : i < 64 := Nat.lt_of_lt_of_le hi (nw_le _)
      rw [eq_wordOffset_of_toNat (reg := .R) hi64 h, memRead_wordOffset .R hi64, readableWord_R_toNat s hi]

/-! ### The bytes of a word (R42) -/

theorem toNat_eq_sum_bytes (v : Word) :
    v.toNat = (v.extractLsb' 0 8).toNat + 256 * (v.extractLsb' 8 8).toNat + 65536 * (v.extractLsb' 16 8).toNat +
      16777216 * (v.extractLsb' 24 8).toNat := by
  have := v.isLt
  simp only [BitVec.extractLsb'_toNat, Nat.shiftRight_eq_div_pow]
  omega

/-- The byte at offset `j` of an aligned word is the byte `j` of its value. -/
theorem windowByte_add {off : Offset} (s : State) (ha : off.toNat % 4 = 0) {j : Nat} (hj : j < 4) :
    windowByte (off + BitVec.ofNat 12 j) s = (memRead off s).extractLsb' (8 * j) 8 := by
  have hadd : (off + BitVec.ofNat 12 j).toNat = off.toNat + j := by
    have := off.isLt
    rw [BitVec.toNat_add, BitVec.toNat_ofNat]
    omega
  have hoff : alignDown (off + BitVec.ofNat 12 j) = off := by
    refine BitVec.eq_of_toNat_eq ?_
    have := off.isLt
    rw [alignDown, hadd, BitVec.toNat_ofNat]
    omega
  have hmod : (off.toNat + j) % 4 = j := by omega
  rw [windowByte, hoff, hadd, hmod]

/-- Inside the window the bus sees the byte at the offset from BASE (R38). -/
theorem busByte_add (s : State) {k : Nat} (hk : k < 4096) :
    busByte (Config.base + k) s = some (windowByte (BitVec.ofNat 12 k) s) := by
  rw [busByte, if_pos ⟨Nat.le_add_right _ _, Nat.add_lt_add_left hk _⟩, Nat.add_sub_cancel_left]

theorem busByte_eq_none (s : State) {addr : Nat} (h : addr < Config.base ∨ Config.base + 4096 ≤ addr) :
    busByte addr s = none :=
  if_neg fun ⟨hlo, hhi⟩ => h.elim (Nat.not_lt.2 hlo) (Nat.not_le.2 hhi)

/-- Settles O45: the four bytes of the word at an aligned offset are its bits from the least significant up. -/
theorem windowBytesAreLittleEndian : Obligations.WindowBytesAreLittleEndian := by
  unfold Obligations.WindowBytesAreLittleEndian
  intro s off ha
  refine ⟨?_, fun j hj => ?_, fun addr => busByte_eq_none s⟩
  · have h0 : windowByte off s = (memRead off s).extractLsb' 0 8 := by
      simpa using windowByte_add s ha (show 0 < 4 by decide)
    have h1 : windowByte (off + 1) s = (memRead off s).extractLsb' 8 8 := windowByte_add s ha (show 1 < 4 by decide)
    have h2 : windowByte (off + 2) s = (memRead off s).extractLsb' 16 8 := windowByte_add s ha (show 2 < 4 by decide)
    have h3 : windowByte (off + 3) s = (memRead off s).extractLsb' 24 8 := windowByte_add s ha (show 3 < 4 by decide)
    rw [h0, h1, h2, h3]
    exact toNat_eq_sum_bytes _
  · have := off.isLt
    rw [Nat.add_assoc, busByte_add s (by omega), BitVec.ofNat_add, BitVec.ofNat_toNat, BitVec.setWidth_eq]

/-! ### What leaves a byte of the window unchanged -/

section
variable {s t : State} {off : Offset}

theorem statusWord_congr (h : s.sameStatus t) : statusWord t = statusWord s := by
  obtain ⟨hbusy, hdone, herr, hoverrun, herrcode⟩ := h
  rw [statusWord, hbusy, hdone, herr, hoverrun, herrcode, statusWord]

theorem ctrlWord_congr (h : s.sameEnables t) : ctrlWord t = ctrlWord s := by
  obtain ⟨hdone, herr⟩ := h
  rw [ctrlWord, hdone, herr, ctrlWord]

theorem readableWord_R_congr (i : Nat) (hw : t.width = s.width) (hR : t.x .R = s.x .R) :
    t.readableWord .R i = s.readableWord .R i := by
  by_cases hi : i < s.width.nw
  · exact BitVec.eq_of_toNat_eq (by rw [readableWord_R_toNat s hi, readableWord_R_toNat t (hw ▸ hi), hR])
  · rw [readableWord_eq_zero s fun _ => hi, readableWord_eq_zero t fun _ => hw ▸ hi]

/-- The word a read returns depends on the width and on the one register that stands at its offset. -/
theorem memRead_congr (ha : off.toNat % 4 = 0) (hw : t.width = s.width)
    (hstatus : off.toNat = 0x00C → s.sameStatus t) (hctrl : off.toNat = 0x010 → s.sameEnables t)
    (hR : 0x400 ≤ off.toNat → off.toNat < 0x500 → t.x .R = s.x .R) : memRead off t = memRead off s := by
  unfold memRead
  cases hx : windowTarget off with
  | id | cmd | reserved => rfl
  | config => exact congrArg configWord hw
  | status => exact statusWord_congr (hstatus (congrArg BitVec.toNat (eq_statusOffset hx)))
  | ctrl => exact ctrlWord_congr (hctrl (congrArg BitVec.toNat (eq_ctrlOffset hx)))
  | operandWord reg i =>
    obtain ⟨hi, rfl⟩ := eq_wordOffset_of_target ha hx
    cases reg with
    | R =>
      have hoff : (wordOffset .R i).toNat = 0x400 + 4 * i := (windowTarget_wordOffset .R hi).2
      exact readableWord_R_congr i hw (hR (by omega) (by omega))
    | _ => rfl

/-- A byte of the window depends on the width and on the one register that stands at its word. -/
theorem windowByte_congr (hw : t.width = s.width) (hstatus : off.toNat / 4 = 3 → s.sameStatus t)
    (hctrl : off.toNat / 4 = 4 → s.sameEnables t)
    (hR : 0x400 ≤ off.toNat → off.toNat < 0x500 → t.x .R = s.x .R) : windowByte off t = windowByte off s := by
  have hoff : (alignDown off).toNat = off.toNat / 4 * 4 := by
    have := off.isLt
    rw [alignDown, BitVec.toNat_ofNat]
    omega
  rw [windowByte, windowByte, memRead_congr (by omega) hw (fun h => hstatus (by omega)) (fun h => hctrl (by omega))
    fun hlo hhi => hR (by omega) (by omega)]

end

theorem issueCommand_sameEnables (s : State) (op : Option (BitVec 4)) : s.sameEnables (s.issueCommand op) := by
  unfold State.issueCommand
  split
  · exact ⟨rfl, rfl⟩
  · cases op <;> exact ⟨rfl, rfl⟩

/-- Settles O49: outside the words named, every register that can be read is the same. -/
theorem instructionFrameOnWindowBytes : Obligations.InstructionFrameOnWindowBytes := by
  unfold Obligations.InstructionFrameOnWindowBytes
  intro i s t off h
  refine ⟨fun hop hoff => ?command, ?clrst, ?setie, ?zeroizeBusy, ?zeroizeIdle, ?softReset⟩
  case command =>
    obtain ⟨op, hop⟩ := Option.isSome_iff_exists.1 hop
    cases h.symm.trans (exec_of_commandOp s hop)
    exact windowByte_congr (by simp) (absurd · hoff) (fun _ => issueCommand_sameEnables s _) (fun _ _ => by simp)
  case clrst =>
    rintro k overrun err done busy rfl hoff
    cases h
    exact windowByte_congr rfl (absurd · hoff) (fun _ => ⟨rfl, rfl⟩) (fun _ _ => rfl)
  case setie =>
    rintro k ieErr ieDone rfl hoff
    cases h
    exact windowByte_congr rfl (fun _ => ⟨rfl, rfl, rfl, rfl, rfl⟩) (absurd · hoff) (fun _ _ => rfl)
  case zeroizeBusy =>
    rintro k ieErr ieDone rfl hb hoff3 hoff4
    rw [exec, execZeroize, if_pos hb] at h
    cases h
    exact windowByte_congr rfl (absurd · hoff3) (absurd · hoff4) (fun _ _ => rfl)
  case zeroizeIdle =>
    rintro k ieErr ieDone rfl hb hoff4 hR
    rw [exec, execZeroize, if_neg (ne_true_of_eq_false hb)] at h
    cases h
    exact windowByte_congr rfl (fun _ => ⟨rfl, rfl, rfl, rfl, rfl⟩) (absurd · hoff4) (fun _ _ => by omega)
  case softReset =>
    rintro g rfl hoff3 hoff4 hR
    cases h
    exact windowByte_congr rfl (absurd · hoff3) (absurd · hoff4) (fun _ _ => by omega)

/-! ### A write to an operand word (R46) -/

/-- Setting word `i` of a register replaces that word and keeps the others (spec/10_state.md R21). -/
theorem setWordOf_toNat_words {w : Nat} (x : BitVec w) (v : Word) {i : Nat} (h : 32 * i + 32 ≤ w) :
    (setWordOf x i v).toNat / 2 ^ (32 * i) % 2 ^ 32 = v.toNat ∧
    ∀ j, j ≠ i → (setWordOf x i v).toNat / 2 ^ (32 * j) % 2 ^ 32 = x.toNat / 2 ^ (32 * j) % 2 ^ 32 := by
  refine ⟨?_, fun j hj => ?_⟩
  · rw [← wordOf_toNat, wordOf_setWordOf_same x i v h]
  · rw [← wordOf_toNat, ← wordOf_toNat, wordOf_setWordOf_other x i j v hj]

theorem setWord_x_words (s : State) {reg : OperandReg} {i : Nat} (v : Word) (hreg : reg ≠ .R) (hi : i < s.width.nw) :
    (s.setWord reg i v).x reg / 2 ^ (32 * i) % 2 ^ 32 = v.toNat ∧
    ∀ j, j ≠ i → (s.setWord reg i v).x reg / 2 ^ (32 * j) % 2 ^ 32 = s.x reg / 2 ^ (32 * j) % 2 ^ 32 := by
  cases reg with
  | R => exact absurd rfl hreg
  | _ => exact setWordOf_toNat_words _ v (word_fits _ hi)

/-- While BUSY = 0 a write to an operand word sets it (R46). -/
theorem operandWrite_of_idle {s : State} {reg : OperandReg} {i : Nat} (v : Word) (hreg : reg ≠ .R)
    (hi : i < s.width.nw) (hb : s.busy = false) : s.operandWrite reg i v = s.setWord reg i v := by
  cases reg with
  | R => exact absurd rfl hreg
  | _ => simp [State.operandWrite, hi, hb]

/-- Settles O40: the step sets the word, and no byte of the window shows A, B or N (spec/10_state.md R18). -/
theorem operandWriteSetsOneWord : Obligations.OperandWriteSetsOneWord := by
  unfold Obligations.OperandWriteSetsOneWord
  intro s reg i v rest hreg hi hb ht
  have hi64 : i < 64 := Nat.lt_of_lt_of_le hi (nw_le _)
  have hw : s.writeDue (wordOffset reg i) v := by rw [State.writeDue, ht]; rfl
  obtain ⟨hsame, hother⟩ := setWord_x_words (s.answered .written) v hreg hi
  refine ⟨(s.answered .written).setWord reg i v, ?_, hsame, fun j hj => ?_, fun reg' hne => ?_, by simp, ?_, ?_, by simp,
    by simp [ht], by simp, fun off => ?_⟩
  · rw [step_of_operandWrite hi64 hw, operandWrite_of_idle (s := s.answered .written) v hreg hi hb]
  · rw [hother j hj, State.answered_x]
  · rw [setWord_x_other _ _ _ i v hne, State.answered_x]
  · exact ⟨by simp, by simp⟩
  · exact ⟨by simp, by simp, by simp, by simp, by simp⟩
  · refine windowByte_congr (by simp) (fun _ => ⟨by simp, by simp, by simp, by simp, by simp⟩)
      (fun _ => ⟨by simp, by simp⟩) (fun _ _ => ?_)
    rw [setWord_x_other _ _ _ i v hreg.symm, State.answered_x]

end Sys2Proof.Machine
end

section
/-! Decoding and encoding are inverse to each other, and the decoder agrees with spec/opcode_table.json (spec/30_encoding.md
R54 to R60). -/

namespace Sys2Proof

/-! ### The decoder at each command register -/

theorem decode_ctrlOffset (v : Word) : decode ctrlOffset v = .ok (decodeCtrl v) := rfl

theorem decode_statusOffset (v : Word) : decode statusOffset v = .ok (decodeStatus v) := rfl

section
variable {v : Word}

theorem decodeCtrl_softReset (h31 : v.getLsbD 31 = true) : decodeCtrl v = .softReset (v.extractLsb' 0 31) := if_pos h31

theorem decodeCtrl_zeroize (h31 : v.getLsbD 31 = false) (h30 : v.getLsbD 30 = true) :
    decodeCtrl v = .zeroize (v.extractLsb' 2 28) (v.getLsbD 1) (v.getLsbD 0) := by
  rw [decodeCtrl, if_neg (ne_true_of_eq_false h31), if_pos h30]

theorem decodeCtrl_setie (h31 : v.getLsbD 31 = false) (h30 : v.getLsbD 30 = false) :
    decodeCtrl v = .setie (v.extractLsb' 2 28) (v.getLsbD 1) (v.getLsbD 0) := by
  rw [decodeCtrl, if_neg (ne_true_of_eq_false h31), if_neg (ne_true_of_eq_false h30)]

/-- A field of a word is known by its bits. -/
theorem extractLsb'_eq_of_getLsbD {start len : Nat} {x : BitVec len}
    (h : ∀ k, k < len → v.getLsbD (start + k) = x.getLsbD k) : v.extractLsb' start len = x := by
  refine BitVec.eq_of_getLsbD_eq fun k hk => ?_
  simp [hk, h k hk]

end

/-! ### Decoding an encoded word -/

theorem decodeCtrl_encode_softReset (ignored : BitVec 31) :
    decodeCtrl (encode (.softReset ignored)) = .softReset ignored := by
  have hfield : (encode (.softReset ignored)).extractLsb' 0 31 = ignored :=
    extractLsb'_eq_of_getLsbD fun k hk => by simp [encode_softReset_getLsbD, hk]
  rw [decodeCtrl_softReset (encode_softReset_getLsbD ..), hfield]

/-- The reserved bits 29:2 of a word laid out as ZEROIZE's and SETIE's are (R55). -/
theorem ctrlWord_extractLsb' (top1 top0 : BitVec 1) (rsvd : BitVec 28) (ieErr ieDone : Bool) :
    (top1 ++ top0 ++ rsvd ++ BitVec.ofBool ieErr ++ BitVec.ofBool ieDone).extractLsb' 2 28 = rsvd :=
  extractLsb'_eq_of_getLsbD fun k hk => by
    simp [ctrlWord_getLsbD, show 2 + k < 30 by omega, show 2 + k ≠ 1 by omega]

theorem decodeCtrl_encode_zeroize (rsvd : BitVec 28) (ieErr ieDone : Bool) :
    decodeCtrl (encode (.zeroize rsvd ieErr ieDone)) = .zeroize rsvd ieErr ieDone := by
  have hfield : (encode (.zeroize rsvd ieErr ieDone)).extractLsb' 2 28 = rsvd := ctrlWord_extractLsb' ..
  rw [decodeCtrl_zeroize (encode_zeroize_getLsbD ..) (encode_zeroize_getLsbD ..), hfield]
  simp only [encode_zeroize_getLsbD, reduceIte, Nat.one_ne_zero]

theorem decodeCtrl_encode_setie (rsvd : BitVec 28) (ieErr ieDone : Bool) :
    decodeCtrl (encode (.setie rsvd ieErr ieDone)) = .setie rsvd ieErr ieDone := by
  have hfield : (encode (.setie rsvd ieErr ieDone)).extractLsb' 2 28 = rsvd := ctrlWord_extractLsb' ..
  rw [decodeCtrl_setie (encode_setie_getLsbD ..) (encode_setie_getLsbD ..), hfield]
  simp only [encode_setie_getLsbD, reduceIte, Nat.one_ne_zero]

theorem decodeStatus_encode_clrst (ignored : BitVec 28) (overrun err done busy : Bool) :
    decodeStatus (encode (.clrst ignored overrun err done busy)) = .clrst ignored overrun err done busy := by
  have hfield : (encode (.clrst ignored overrun err done busy)).extractLsb' 4 28 = ignored :=
    extractLsb'_eq_of_getLsbD fun k hk => by
      simp [encode_clrst_getLsbD, show 4 + k ≠ 1 by omega, show 4 + k ≠ 2 by omega, show 4 + k ≠ 3 by omega]
  simp only [decodeStatus, hfield, encode_clrst_getLsbD, reduceIte, Nat.reduceEqDiff]

/-- The round trip from instructions to words, one case for each format (R54, R55, R56). -/
theorem decode_encode (i : Instr) : decode i.offset (encode i) = .ok i := by
  cases i with
  | modexp | modmul | gcd | modinv => rfl
  | softReset => rw [Instr.offset, decode_ctrlOffset, decodeCtrl_encode_softReset]
  | zeroize => rw [Instr.offset, decode_ctrlOffset, decodeCtrl_encode_zeroize]
  | setie => rw [Instr.offset, decode_ctrlOffset, decodeCtrl_encode_setie]
  | clrst => rw [Instr.offset, decode_statusOffset, decodeStatus_encode_clrst]

/-- Settles O2: well-formedness asks nothing of an instruction, its fields being all that its format leaves free. -/
theorem decodeOfEncode : Obligations.DecodeOfEncode := by
  unfold Obligations.DecodeOfEncode
  exact fun i _ => decode_encode i

/-! ### Encoding a decoded word -/

/-- The command words: `OP` alone, the reserved bits 0 (R54). -/
theorem encode_of_commandOp {i : Instr} {op : BitVec 4} (h : Machine.commandOp i = some op) :
    i.offset = cmdOffset ∧ encode i = BitVec.ofNat 32 op.toNat := by
  cases i with
  | modexp | modmul | gcd | modinv =>
    cases h
    exact ⟨rfl, rfl⟩
  | _ => cases h

/-- What a CMD word decodes to does not depend on a state; `writeCmd_cases` speaks of one, so any state serves. -/
theorem encode_of_decodeCmd {v : Word} {i : Instr} (h : decodeCmd v = .ok i) : i.offset = cmdOffset ∧ encode i = v := by
  rcases Machine.writeCmd_cases v Machine.State.reset with ⟨j, op, hd, hop, -, hv, -⟩ | ⟨e, hd, -⟩
  · cases hd.symm.trans h
    exact hv ▸ encode_of_commandOp hop
  · cases hd.symm.trans h

theorem decodeCtrl_offset (v : Word) : (decodeCtrl v).offset = ctrlOffset := by
  unfold decodeCtrl
  split_ifs <;> rfl

/-- Bit by bit: the decoder's tests fix bits 31 and 30, and every other bit is a field (R55). -/
theorem encode_decodeCtrl (v : Word) : encode (decodeCtrl v) = v := by
  refine BitVec.eq_of_getLsbD_eq fun k hk => ?_
  cases h31 : v.getLsbD 31
  · cases h30 : v.getLsbD 30
    · rw [decodeCtrl_setie h31 h30, encode_setie_getLsbD]
      grind
    · rw [decodeCtrl_zeroize h31 h30, encode_zeroize_getLsbD]
      grind
  · rw [decodeCtrl_softReset h31, encode_softReset_getLsbD]
    grind

/-- Every bit of a STATUS word is a field (R56). -/
theorem encode_decodeStatus (v : Word) : encode (decodeStatus v) = v := by
  refine BitVec.eq_of_getLsbD_eq fun k hk => ?_
  rw [decodeStatus, encode_clrst_getLsbD]
  grind

/-- The round trip from words to instructions, one case for each command register. -/
theorem encode_of_decode {off : Offset} {v : Word} {i : Instr} (h : decode off v = .ok i) :
    i.offset = off ∧ encode i = v := by
  unfold decode at h
  split_ifs at h with hcmd hctrl hstatus
  · exact hcmd ▸ encode_of_decodeCmd h
  · cases h
    exact ⟨(decodeCtrl_offset v).trans hctrl.symm, encode_decodeCtrl v⟩
  · cases h
    exact ⟨hstatus.symm, encode_decodeStatus v⟩

/-- Settles O3, register by register: every bit of the word is a field of the instruction, or fixed by its format. -/
theorem encodeOfDecode : Obligations.EncodeOfDecode := by
  unfold Obligations.EncodeOfDecode
  exact fun _ _ _ => encode_of_decode

/-- A word decodes to an instruction exactly where it is the encoding of it: the two round trips together. -/
theorem decode_eq_ok_iff {off : Offset} {v : Word} {i : Instr} :
    decode off v = .ok i ↔ i.offset = off ∧ encode i = v := by
  refine ⟨encode_of_decode, ?_⟩
  rintro ⟨rfl, rfl⟩
  exact decode_encode i

/-! ### The words of CMD (R58, R60) -/

theorem decodeCmd_eq_ok_iff {v : Word} {i : Instr} : decodeCmd v = .ok i ↔ i.offset = cmdOffset ∧ encode i = v :=
  decode_eq_ok_iff (off := cmdOffset)

/-- The four commands are all the instructions of CMD (R58). -/
theorem eq_command_of_offset {i : Instr} (h : i.offset = cmdOffset) :
    i = .modexp ∨ i = .modmul ∨ i = .gcd ∨ i = .modinv := by
  cases i with
  | modexp | modmul | gcd | modinv => simp
  | softReset | zeroize | setie => exact absurd h (show ctrlOffset ≠ cmdOffset by decide)
  | clrst => exact absurd h (show statusOffset ≠ cmdOffset by decide)

/-- Settles O4: a word decodes to a command exactly where it is its encoding, and CMD has four commands. -/
theorem onlyFourCommandWordsAreLegal : Obligations.OnlyFourCommandWordsAreLegal := by
  unfold Obligations.OnlyFourCommandWordsAreLegal
  intro v
  have hword {i : Instr} (hi : i.offset = cmdOffset) : decodeCmd v = .ok i ↔ v = encode i := by
    rw [decodeCmd_eq_ok_iff, eq_comm (a := v)]
    exact and_iff_right hi
  have h1 : decodeCmd v = .ok .modexp ↔ v = 1 := hword rfl
  have h2 : decodeCmd v = .ok .modmul ↔ v = 2 := hword rfl
  have h3 : decodeCmd v = .ok .gcd ↔ v = 3 := hword rfl
  have h4 : decodeCmd v = .ok .modinv ↔ v = 4 := hword rfl
  refine ⟨h1, h2, h3, h4, ?_⟩
  rw [Ne, Ne, Ne, Ne, ← h1, ← h2, ← h3, ← h4]
  cases hd : decodeCmd v with
  | error e => simp
  | ok i =>
    obtain ⟨hoff, -⟩ := decodeCmd_eq_ok_iff.1 hd
    rcases eq_command_of_offset hoff with rfl | rfl | rfl | rfl <;> simp

/-! ### The opcode table (R59) -/

/-- Every instruction's word, at its register, fits a row with its mnemonic. -/
theorem tableRow_statement (i : Instr) : Laws.TableRow.Statement i := by
  cases i with
  | modexp => exact Laws.TableRow.modexp
  | modmul => exact Laws.TableRow.modmul
  | gcd => exact Laws.TableRow.gcd
  | modinv => exact Laws.TableRow.modinv
  | softReset => exact Laws.TableRow.softReset _
  | zeroize => exact Laws.TableRow.zeroize ..
  | setie => exact Laws.TableRow.setie ..
  | clrst => exact Laws.TableRow.clrst ..

/-- A word that fits a row has the row's pattern in the bits that the mask keeps. -/
theorem OpcodeRow.getLsbD_of_fits {row : OpcodeRow} {v : Word} (h : row.fits v = true) {k : Nat}
    (hk : row.mask.getLsbD k = true) : v.getLsbD k = row.pattern.getLsbD k := by
  rw [← eq_of_beq h, BitVec.getLsbD_and, hk, Bool.and_true]

/-- The row of one word is fitted by that word alone. -/
theorem OpcodeRow.eq_pattern_of_fits {row : OpcodeRow} {v : Word} (h : row.fits v = true)
    (hm : row.mask = BitVec.allOnes 32) : v = row.pattern := by
  rw [← eq_of_beq h, hm, BitVec.and_allOnes]

/-- A word that fits a row decodes, at the row's register, to an instruction with its mnemonic. -/
theorem decode_of_fits {row : OpcodeRow} {v : Word} (hrow : row ∈ opcodeTable) (h : row.fits v = true) :
    ∃ i, decode row.off v = .ok i ∧ i.mnemonic = row.mnemonic := by
  simp only [opcodeTable, List.mem_cons, List.not_mem_nil, or_false] at hrow
  rcases hrow with rfl | rfl | rfl | rfl | rfl | rfl | rfl | rfl
  · exact ⟨.modexp, by rw [OpcodeRow.eq_pattern_of_fits h rfl]; rfl, rfl⟩
  · exact ⟨.modmul, by rw [OpcodeRow.eq_pattern_of_fits h rfl]; rfl, rfl⟩
  · exact ⟨.gcd, by rw [OpcodeRow.eq_pattern_of_fits h rfl]; rfl, rfl⟩
  · exact ⟨.modinv, by rw [OpcodeRow.eq_pattern_of_fits h rfl]; rfl, rfl⟩
  · have h31 : v.getLsbD 31 = true := OpcodeRow.getLsbD_of_fits h rfl
    exact ⟨_, by rw [decode_ctrlOffset, decodeCtrl_softReset h31], rfl⟩
  · have h31 : v.getLsbD 31 = false := OpcodeRow.getLsbD_of_fits h rfl
    have h30 : v.getLsbD 30 = true := OpcodeRow.getLsbD_of_fits h rfl
    exact ⟨_, by rw [decode_ctrlOffset, decodeCtrl_zeroize h31 h30], rfl⟩
  · have h31 : v.getLsbD 31 = false := OpcodeRow.getLsbD_of_fits h rfl
    have h30 : v.getLsbD 30 = false := OpcodeRow.getLsbD_of_fits h rfl
    exact ⟨_, by rw [decode_ctrlOffset, decodeCtrl_setie h31 h30], rfl⟩
  · exact ⟨_, decode_statusOffset v, rfl⟩

/-- No two rows of the table have one mnemonic. -/
theorem eq_of_mnemonic_eq {row row' : OpcodeRow} (hrow : row ∈ opcodeTable) (hrow' : row' ∈ opcodeTable)
    (h : row.mnemonic = row'.mnemonic) : row = row' :=
  List.inj_on_of_nodup_map (by decide) hrow hrow' h

/-- Settles O5: an instruction has one row, by its mnemonic, and two rows of one register that fit one word are both the row
of what it decodes to. -/
theorem decoderAgreesWithOpcodeTable : Obligations.DecoderAgreesWithOpcodeTable := by
  unfold Obligations.DecoderAgreesWithOpcodeTable
  refine ⟨fun off v i hd => ?_, fun row v => decode_of_fits, fun row row' v hrow hrow' hoff hfit hfit' => ?_⟩
  · obtain ⟨rfl, rfl⟩ := encode_of_decode hd
    exact tableRow_statement i
  · obtain ⟨i, hd, hm⟩ := decode_of_fits hrow hfit
    obtain ⟨i', hd', hm'⟩ := decode_of_fits hrow' hfit'
    cases (hoff ▸ hd).symm.trans hd'
    exact eq_of_mnemonic_eq hrow hrow' (hm.symm.trans hm')

/-! ### Written-out words -/

/-- Settles O1: the decoder computes on a literal word. -/
theorem writtenOutWordsDecode : Obligations.WrittenOutWordsDecode := by
  unfold Obligations.WrittenOutWordsDecode
  decide

end Sys2Proof
end

section
/-! What an encoded word does in the machine: the bits that have no effect (spec/30_encoding.md R55, R56), and where a bare
table word is put (log entries 8 and 9). -/

namespace Sys2Proof.Machine

/-- Settles O6: no meaning mentions the ignored fields. -/
theorem ignoredBitsHaveNoEffect : Obligations.IgnoredBitsHaveNoEffect := by
  unfold Obligations.IgnoredBitsHaveNoEffect
  intros
  exact ⟨rfl, rfl, rfl, rfl⟩

/-- A bare table word is decoded at the register that its row names (log entry 8). -/
theorem decode_of_decodeTableWord {nbits w : Nat} {i : Instr} (h : decodeTableWord nbits w = some i) :
    decode (tableOffset nbits w) (tableWord nbits w) = .ok i := by
  unfold decodeTableWord at h
  split at h
  · next hd => rw [hd, Option.some.inj h]
  · cases h

/-- Settles O8: the word stands in front of what is due, as the host write whose step O7 gives. -/
theorem fetchWordRunsNext : Obligations.FetchWordRunsNext := by
  unfold Obligations.FetchWordRunsNext
  intro s nbits w i h
  exact stepRunsDecodedInstruction (s.withFetchWord nbits w) _ _ s.turns i rfl (decode_of_decodeTableWord h)

end Sys2Proof.Machine
end

section
/-! Loading an operand word by word (spec/30_encoding.md R62): each write of an `ldop` sets its word, and the words are all
there is of the register (spec/10_state.md R21). -/

namespace Sys2Proof.Machine

/-! ### The writes of an `ldop` -/

/-- The word that `ldop` writes to word `i` of the register (R62). -/
def ldopWord (v i : Nat) : Word := BitVec.ofNat 32 (v >>> (32 * i))

theorem ldopWord_toNat (v i : Nat) : (ldopWord v i).toNat = v / 2 ^ (32 * i) % 2 ^ 32 := by
  rw [ldopWord, BitVec.toNat_ofNat, Nat.shiftRight_eq_div_pow]

/-- The writes that `ldop` makes for the `m` words from word `k` on. -/
def ldopTurns (reg : OperandReg) (v k m : Nat) : List Turn :=
  (List.range' k m).map fun i => .host (.writeWord (wordOffset reg i) (ldopWord v i))

theorem ldopTurns_succ (reg : OperandReg) (v k m : Nat) :
    ldopTurns reg v k (m + 1) = .host (.writeWord (wordOffset reg k) (ldopWord v k)) :: ldopTurns reg v (k + 1) m := rfl

theorem map_host_ldopTransfers (w : Width) (reg : OperandReg) (v : Nat) :
    (ldopTransfers w reg v).map .host = ldopTurns reg v 0 w.nw := by
  rw [ldopTransfers, ldopTurns, List.map_map, List.range_eq_range']
  rfl

theorem State.setX_x (s : State) (reg : OperandReg) : s.setX reg (s.x reg) = s := by
  cases reg <;> simp [State.setX, State.x]

/-- A number below `2^OPW` is known by its words (spec/10_state.md R21). -/
theorem eq_of_words_eq {w : Width} {x y : Nat} (hx : x < 2 ^ w.opw) (hy : y < 2 ^ w.opw)
    (h : ∀ j, j < w.nw → x / 2 ^ (32 * j) % 2 ^ 32 = y / 2 ^ (32 * j) % 2 ^ 32) : x = y := by
  rw [← Nat.mod_eq_of_lt hx, ← Nat.mod_eq_of_lt hy, Width.opw, ← sum_words_eq_mod, ← sum_words_eq_mod]
  exact Finset.sum_congr rfl fun j hj => by rw [h j (Finset.mem_range.1 hj)]

/-- While BUSY = 0 the step of a due write to an operand word sets the word (spec/20_memory.md R46). -/
theorem step_of_operandWrite_of_idle {s : State} {reg : OperandReg} {i : Nat} {v : Word} (hreg : reg ≠ .R)
    (hi : i < s.width.nw) (hb : s.busy = false) (hw : s.writeDue (wordOffset reg i) v) :
    step s = .next ((s.answered .written).setWord reg i v) := by
  rw [step_of_operandWrite (Nat.lt_of_lt_of_le hi (nw_le _)) hw,
    operandWrite_of_idle (s := s.answered .written) v hreg hi hb]

/-! ### The load -/

/-- In the middle of loading `v`: the words below `k` stand in the register, and the writes of the `m` others are due. -/
structure Loading (reg : OperandReg) (v : Nat) (rest : List Turn) (s : State) (k m : Nat) : Prop where
  writable : reg ≠ .R
  idle : s.busy = false
  fits : v < 2 ^ s.width.opw
  count : k + m = s.width.nw
  due : s.turns = ldopTurns reg v k m ++ rest
  loaded : ∀ j, j < k → s.x reg / 2 ^ (32 * j) % 2 ^ 32 = v / 2 ^ (32 * j) % 2 ^ 32
  answered : m = 0 → s.response = some .written

section
variable {reg : OperandReg} {v : Nat} {rest : List Turn} {s : State} {k m : Nat}

/-- With no write left, the register holds the integer. -/
theorem Loading.x_eq (h : Loading reg v rest s k 0) : s.x reg = v :=
  eq_of_words_eq (s.x_lt reg) h.fits fun j hj => h.loaded j (hj.trans_eq h.count.symm)

/-- The next write of a load sets its word, and the load goes on with the word after it. -/
theorem Loading.step (h : Loading reg v rest s k (m + 1)) :
    step s = .next ((s.answered .written).setWord reg k (ldopWord v k)) ∧
      Loading reg v rest ((s.answered .written).setWord reg k (ldopWord v k)) (k + 1) m := by
  have ht := h.due
  rw [ldopTurns_succ, List.cons_append] at ht
  have hk : k < s.width.nw := by have := h.count; omega
  have hdue : s.writeDue (wordOffset reg k) (ldopWord v k) := by rw [State.writeDue, ht]; rfl
  obtain ⟨hsame, hother⟩ := setWord_x_words (s.answered .written) (ldopWord v k) h.writable hk
  refine ⟨step_of_operandWrite_of_idle h.writable hk h.idle hdue, h.writable, by simpa using h.idle, by simpa using h.fits,
    by rw [setWord_width, State.answered_width, ← h.count, Nat.succ_add_eq_add_succ], by simp [ht],
    fun j hj => ?_, fun _ => by simp⟩
  rcases Nat.lt_succ_iff_lt_or_eq.1 hj with hj | rfl
  · rw [hother j hj.ne, State.answered_x, h.loaded j hj]
  · rw [hsame, ldopWord_toNat]

/-- The writes left complete the load, whatever their words held before (spec/70_reset_and_hazards.md R114). -/
theorem Loading.runSteps (h : Loading reg v rest s k m) :
    runSteps m s = .next { s.setX reg v with turns := rest, response := some .written } := by
  induction m generalizing s k with
  | zero =>
    rw [← h.x_eq, State.setX_x, ← h.answered rfl, ← show s.turns = rest from h.due]
    rfl
  | succ m ih =>
    obtain ⟨hstep, hnext⟩ := h.step
    rw [Machine.runSteps, hstep]
    refine (ih hnext).trans ?_
    cases reg <;> rfl

end

/-- Settles O46: the load begins with no word loaded and all of them due, and a register has at least one word. -/
theorem loadingAllWordsSetsOperand : Obligations.LoadingAllWordsSetsOperand := by
  unfold Obligations.LoadingAllWordsSetsOperand
  intro s reg v rest hreg hb hv ht
  have hload : Loading reg v rest s 0 s.width.nw :=
    { writable := hreg
      idle := hb
      fits := hv
      count := Nat.zero_add _
      due := by rw [ht, map_host_ldopTransfers]
      loaded := fun _ hj => absurd hj (Nat.not_lt_zero _)
      answered := fun h => absurd h (Nat.succ_ne_zero _) }
  exact hload.runSteps

end Sys2Proof.Machine
end

section
/-! Commands: what a CMD write issues (spec/40_command.md R64 to R66), and what each instruction leaves unchanged. -/

namespace Sys2Proof.Machine

variable {s : State}

/-! ### The words of CMD -/

/-- The legal words of CMD are 1 to 4 (spec/30_encoding.md R58, R60). -/
theorem exists_decodeCmd_iff {v : Word} : (∃ i, decodeCmd v = .ok i) ↔ v = 1 ∨ v = 2 ∨ v = 3 ∨ v = 4 := by
  refine ⟨?_, exists_decodeCmd_of_legal⟩
  rintro ⟨i, hd⟩
  obtain ⟨hoff, rfl⟩ := decodeCmd_eq_ok_iff.1 hd
  rcases eq_command_of_offset hoff with rfl | rfl | rfl | rfl
  exacts [.inl rfl, .inr (.inl rfl), .inr (.inr (.inl rfl)), .inr (.inr (.inr rfl))]

/-- While BUSY = 1 a CMD write only sets OVERRUN, whatever its word (spec/40_command.md R66). -/
theorem memWrite_cmd_of_busy (v : Word) (hb : s.busy = true) : memWrite cmdOffset v s = .next s.setOverrun := by
  obtain ⟨op, hw, -⟩ := memWrite_cmd v s
  rw [hw, issueCommand_of_busy s op hb]

/-- A command while BUSY = 0 is accepted (spec/40_command.md R64). -/
theorem exec_command_of_idle {i : Instr} {op : BitVec 4} (hb : s.busy = false) (hop : commandOp i = some op) :
    exec i s = .next (s.accepted op) := by
  rw [exec_of_commandOp s hop, issueCommand_legal s op hb]
  rfl

/-- A legal word has its opcode in bits 3:0 (spec/30_encoding.md R54, R58). -/
theorem memWrite_cmd_legal {v : Word} (hb : s.busy = false) (hv : v = 1 ∨ v = 2 ∨ v = 3 ∨ v = 4) :
    memWrite cmdOffset v s = .next (s.accepted (v.extractLsb' 0 4)) := by
  rcases hv with rfl | rfl | rfl | rfl
  · exact exec_command_of_idle (i := .modexp) hb rfl
  · exact exec_command_of_idle (i := .modmul) hb rfl
  · exact exec_command_of_idle (i := .gcd) hb rfl
  · exact exec_command_of_idle (i := .modinv) hb rfl

/-- An illegal word while BUSY = 0 ends at once in error 1 (spec/40_command.md R65). -/
theorem memWrite_cmd_illegal {v : Word} (hb : s.busy = false) (hv : ¬ (v = 1 ∨ v = 2 ∨ v = 3 ∨ v = 4)) :
    memWrite cmdOffset v s = .next (s.clearOutcome.raise .illegalOp) := by
  obtain ⟨op, hw, hop⟩ := memWrite_cmd v s
  rw [exists_decodeCmd_iff] at hop
  cases op with
  | none => rw [hw, issueCommand_illegal s hb]
  | some o => exact absurd (hop.1 rfl) hv

/-- An error raised while BUSY = 0 has no BUSY to clear (spec/60_exceptions.md R98). -/
theorem State.raise_of_idle (hb : s.busy = false) (e : ErrorCode) :
    s.raise e = { s with err := true, errcode := e.code } := by
  rw [State.raise, ← hb]

/-- Settles O12: each command issues its own opcode. -/
theorem idleCommandIsAccepted : Obligations.IdleCommandIsAccepted := by
  unfold Obligations.IdleCommandIsAccepted
  exact fun _ hb => ⟨exec_command_of_idle hb rfl, exec_command_of_idle hb rfl, exec_command_of_idle hb rfl,
    exec_command_of_idle hb rfl⟩

/-- Settles O11, by BUSY and the kind of word. -/
theorem cmdWriteIssuesCommand : Obligations.CmdWriteIssuesCommand := by
  unfold Obligations.CmdWriteIssuesCommand
  refine fun s v => ⟨memWrite_cmd_of_busy v, memWrite_cmd_legal, fun hb hv => ?_⟩
  rw [memWrite_cmd_illegal hb hv, State.raise_of_idle (s := s.clearOutcome) hb]
  rfl

/-- Settles O13: the step of the due write is that write. -/
theorem busyCmdWriteOnlySetsOverrun : Obligations.BusyCmdWriteOnlySetsOverrun := by
  unfold Obligations.BusyCmdWriteOnlySetsOverrun
  intro s v rest hb ht
  rw [step_write ht (by decide)]
  exact memWrite_cmd_of_busy v hb

/-- Settles O14: with DONE cleared, irq is left to ERR and its enable. -/
theorem illegalCommandWordEndsAtOnce : Obligations.IllegalCommandWordEndsAtOnce := by
  unfold Obligations.IllegalCommandWordEndsAtOnce
  intro s v rest ht h1 h2 h3 h4
  refine ⟨fun hb => ⟨_, ?_, rfl, by simp [State.irq]⟩, fun hb => busyCmdWriteOnlySetsOverrun s v rest hb ht⟩
  rw [step_write ht (by decide)]
  exact memWrite_cmd_illegal hb (not_or.2 ⟨h1, not_or.2 ⟨h2, not_or.2 ⟨h3, h4⟩⟩⟩)

/-- Settles O41: `operandWrite` turns the word away before it looks at the register. -/
theorem busyOperandWriteOnlySetsOverrun : Obligations.BusyOperandWriteOnlySetsOverrun := by
  unfold Obligations.BusyOperandWriteOnlySetsOverrun
  intro s reg i v rest hreg hi hb ht
  have hi64 : i < 64 := Nat.lt_of_lt_of_le hi (nw_le _)
  rw [step_write ht (wordOffset_aligned reg hi64), memWrite_wordOffset reg hi64]
  exact congrArg _ (operandWrite_of_busy { s with turns := rest, response := some .written } hreg hi hb)

/-! ### The frame of an instruction -/

/-- While BUSY = 1 a ZEROIZE is turned away, except for its enables (spec/43_control.md R91). -/
theorem exec_zeroize_of_busy (rsvd : BitVec 28) (ieErr ieDone : Bool) (hb : s.busy = true) :
    exec (.zeroize rsvd ieErr ieDone) s = .next (s.setEnables ieErr ieDone).setOverrun :=
  if_pos hb

theorem exec_zeroize_of_idle (rsvd : BitVec 28) (ieErr ieDone : Bool) (hb : s.busy = false) :
    exec (.zeroize rsvd ieErr ieDone) s = .next (s.setEnables ieErr ieDone).zeroizeOperands :=
  if_neg (ne_true_of_eq_false hb)

/-- No instruction changes the width, what is due, or the last answer on the bus (log entries 1, 2, 6). -/
theorem exec_width_turns_response {i : Instr} {s t : State} (h : exec i s = .next t) :
    t.width = s.width ∧ t.turns = s.turns ∧ t.response = s.response := by
  cases i with
  | modexp | modmul | gcd | modinv =>
    cases h
    exact ⟨issueCommand_width .., issueCommand_turns .., issueCommand_response ..⟩
  | softReset | setie | clrst =>
    cases h
    exact ⟨rfl, rfl, rfl⟩
  | zeroize rsvd ieErr ieDone =>
    cases hb : s.busy
    case true =>
      cases h.symm.trans (exec_zeroize_of_busy rsvd ieErr ieDone hb)
      exact ⟨rfl, rfl, rfl⟩
    case false =>
      cases h.symm.trans (exec_zeroize_of_idle rsvd ieErr ieDone hb)
      exact ⟨rfl, rfl, rfl⟩

/-- Settles O48, family by family. -/
theorem instructionFrameOnState : Obligations.InstructionFrameOnState := by
  unfold Obligations.InstructionFrameOnState
  intro i s t h
  obtain ⟨hwidth, hturns, hresponse⟩ := exec_width_turns_response h
  refine ⟨hwidth, hturns, hresponse, fun hop => ?command, ?setie, ?clrst, ?zeroize⟩
  case command =>
    obtain ⟨op, hop⟩ := Option.isSome_iff_exists.1 hop
    cases h.symm.trans (exec_of_commandOp s hop)
    refine ⟨⟨hwidth, issueCommand_x s _⟩, issueCommand_sameEnables s _, fun hb => by simp [hb], fun hb => ?_⟩
    rw [issueCommand_of_busy s _ hb]
    exact ⟨rfl, rfl, rfl, rfl, rfl⟩
  case setie =>
    rintro k ieErr ieDone rfl
    cases h
    exact ⟨⟨rfl, fun _ => by simp⟩, ⟨rfl, rfl, rfl, rfl, rfl⟩, rfl⟩
  case clrst =>
    rintro k overrun err done busy rfl
    cases h
    exact ⟨⟨rfl, fun _ => by simp⟩, ⟨rfl, rfl⟩, rfl, rfl, fun hd => by simp [hd], fun he => by simp [he],
      fun ho => by simp [ho]⟩
  case zeroize =>
    rintro k ieErr ieDone rfl
    cases hb : s.busy
    case true =>
      cases h.symm.trans (exec_zeroize_of_busy k ieErr ieDone hb)
      exact ⟨rfl, by simp, fun _ => ⟨⟨rfl, fun _ => by simp⟩, hb, rfl, rfl, rfl⟩⟩
    case false =>
      cases h.symm.trans (exec_zeroize_of_idle k ieErr ieDone hb)
      exact ⟨rfl, fun _ => ⟨rfl, rfl, rfl, rfl, rfl⟩, by simp⟩

end Sys2Proof.Machine
end

section
/-! The completion step: its effect, its frame, and what it depends on (spec/40_command.md R68, R69, R72). -/

namespace Sys2Proof.Machine

/-! ### What the end of a job leaves unchanged (R69) -/

section
variable (s : State) (res : JobResult)

@[simp] theorem finish_overrun : (s.finish res).overrun = s.overrun := by cases res <;> rfl

@[simp] theorem finish_jobOp : (s.finish res).jobOp = s.jobOp := by cases res <;> rfl

@[simp] theorem finish_response : (s.finish res).response = s.response := by cases res <;> rfl

theorem finish_sameEnables : s.sameEnables (s.finish res) := by cases res <;> exact ⟨rfl, rfl⟩

/-- An error leaves R as it was; ERR = 0 before tells that the error is this job's (spec/60_exceptions.md R98). -/
theorem finish_x_R_of_err (hs : s.err = false) (ht : (s.finish res).err = true) : (s.finish res).x .R = s.x .R := by
  cases res with
  | ok v => simp [hs] at ht
  | err e => rfl

end

/-- Settles O28, by the result of the job. -/
theorem completionIsOneAtomicStep : Obligations.CompletionIsOneAtomicStep := by
  unfold Obligations.CompletionIsOneAtomicStep
  refine fun s => ⟨fun hb t h => ?_, fun hb => ⟨fun v hr => engineStep_of_jobResult hb hr,
    fun e hr => engineStep_of_jobResult hb hr⟩⟩
  obtain ⟨hb', -⟩ := engineStep_cases h
  exact Bool.false_ne_true (hb.symm.trans hb')

/-- Settles O50: the readable registers that a completion changes are STATUS and R. -/
theorem completionFrame : Obligations.CompletionFrame := by
  unfold Obligations.CompletionFrame
  intro s t h
  obtain ⟨-, res, -, rfl⟩ := engineStep_cases h
  refine ⟨finish_width s res, finish_x s res .A (by decide), finish_x s res .B (by decide), finish_x s res .N (by decide),
    finish_sameEnables s res, finish_overrun s res, finish_jobOp s res, finish_turns s res, finish_response s res,
    finish_x_R_of_err s res, fun off hstatus hR => ?_⟩
  exact windowByte_congr (finish_width s res) (absurd · hstatus) (fun _ => finish_sameEnables s res)
    (fun _ _ => by omega)

/-- The result of a job depends on the width, the opcode and A, B and N (spec/40_command.md R72). -/
theorem jobResult_congr {s s' : State} (hw : s'.width = s.width) (hop : s'.jobOp = s.jobOp) (ha : s'.x .A = s.x .A)
    (hb : s'.x .B = s.x .B) (hn : s'.x .N = s.x .N) : s'.jobResult = s.jobResult := by
  rw [State.jobResult, hw, hop, ha, hb, hn, State.jobResult]

/-- Settles O27: both completions end in the same result. -/
theorem sameJobSameOutcome : Obligations.SameJobSameOutcome := by
  unfold Obligations.SameJobSameOutcome
  intro s s' t t' hw hop ha hb hn he he' h h'
  obtain ⟨-, res, hr, rfl⟩ := engineStep_cases h
  obtain ⟨-, res', hr', rfl⟩ := engineStep_cases h'
  rw [jobResult_congr hw hop ha hb hn, hr] at hr'
  cases hr'
  cases res with
  | ok v => simp [he, he', hw]
  | err e => simp

end Sys2Proof.Machine
end

section
/-! The job in flight: what keeps it, what it computes on, and that it ends (spec/40_command.md R66, R70, R71). -/

namespace Sys2Proof.Machine

variable {s t u : State}

/-! ### What keeps the job -/

/-- JOB_OP is not a command's to take while BUSY = 1 (spec/40_command.md R66). -/
theorem issueCommand_jobOp_of_busy (op : Option (BitVec 4)) (hb : s.busy = true) :
    (s.issueCommand op).jobOp = s.jobOp := by
  rw [issueCommand_of_busy s op hb, State.setOverrun_jobOp]

/-- What may change JOB_OP in a step: a command word while BUSY = 0, or a reset (spec/10_state.md R34). -/
theorem jobOp_cause (h : step s = .next t) (hop : t.jobOp ≠ s.jobOp) :
    (s.busy = false ∧ ∃ v, s.writeDue cmdOffset v) ∨ s.softResetDue ∨ s.resetDue = true := by
  cases step_cases h with
  | command v _ _ hw _ _ _ _ | illegal v _ hw _ =>
    exact .inl ⟨by_contra fun hb => hop (issueCommand_jobOp_of_busy _ (by simpa using hb)), v, hw⟩
  | softReset hz => exact .inr (.inl hz)
  | reset hr => exact .inr (.inr hr)
  | _ => exact absurd (by simp) hop

/-- The job in flight in `s` is still in flight in `t`, with the operands it had. -/
structure State.JobKept (s t : State) : Prop where
  busy : t.busy = true
  jobOp : t.jobOp = s.jobOp
  sameOperands : s.sameOperands t

theorem State.JobKept.trans (hst : s.JobKept t) (htu : t.JobKept u) : s.JobKept u := by
  obtain ⟨-, hop, hw, hx⟩ := hst
  obtain ⟨hb, hop', hw', hx'⟩ := htu
  exact ⟨hb, hop'.trans hop, hw'.trans hw, fun reg => (hx' reg).trans (hx reg)⟩

/-- A job that is kept has the same result (spec/40_command.md R71). -/
theorem State.JobKept.jobResult_eq (h : s.JobKept t) : t.jobResult = s.jobResult := by
  obtain ⟨-, hop, hw, hx⟩ := h
  exact jobResult_congr hw hop (hx .A) (hx .B) (hx .N)

/-- Only the engine and the two resets end a job in flight: every other cause of a change of BUSY, JOB_OP or an operand
register is one that BUSY = 1 turns away (spec/40_command.md R66). -/
theorem step_jobKept (hb : s.busy = true) (he : s.engineDue = false) (hr : s.resetDue = false) (hz : ¬ s.softResetDue)
    (h : step s = .next t) : s.JobKept t := by
  refine ⟨by_contra fun htb => ?_, by_contra fun hop => ?_, step_width h, fun reg => by_contra fun hx => ?_⟩
  · rcases busy_clear_cause h hb (by simpa using htb) with hc | hc | hc
    · simp [he] at hc
    · simp [hr] at hc
    · exact hz hc
  · rcases jobOp_cause h hop with ⟨hc, -⟩ | hc | hc
    · simp [hb] at hc
    · exact hz hc
    · simp [hr] at hc
  · cases step_register_cause h hx with
    | reset hc => simp [hr] at hc
    | softReset hc => exact hz hc
    | zeroize _ hc => simp [hb] at hc
    | hostWrite _ _ _ hc _ _ => simp [hb] at hc
    | completion _ _ hc _ _ _ => simp [he] at hc

/-- In a good state a job in flight has no outcome yet (spec/10_state.md R30, spec/43_control.md R93). -/
theorem State.Inv.no_outcome_of_busy (h : s.Inv) (hb : s.busy = true) :
    s.done = false ∧ s.err = false ∧ s.errcode = 0 := by
  obtain ⟨hd, he⟩ := h.busyNoOutcome hb
  exact ⟨hd, he, by_contra fun hc => Bool.false_ne_true (he.symm.trans (h.errcodeIff.1 hc))⟩

/-- Settles O60: the job is kept, so the next state, good again, is one with a job in flight and no outcome. -/
theorem stepKeepsJobInFlight : Obligations.StepKeepsJobInFlight := by
  unfold Obligations.StepKeepsJobInFlight
  intro s t hb he hr hz h
  obtain ⟨htb, hop, hx⟩ := step_jobKept hb he hr hz h
  exact ⟨htb, hop, hx, fun hs => (step_inv hs h).no_outcome_of_busy htb⟩

/-! ### Runs of host turns (R71) -/

theorem runSteps_succ (k : Nat) (h : step s = .next t) : runSteps (k + 1) s = runSteps k t := by
  rw [runSteps, h]

/-- A turn that keeps the job is a host access. -/
theorem Turn.eq_host_of_keepsJob {turn : Turn} (h : turn.keepsJob = true) : ∃ tr, turn = .host tr := by
  cases turn with
  | host tr => exact ⟨tr, rfl⟩
  | engine | reset => cases h

/-- Of the CTRL writes exactly those with bit 31 set are SOFT_RESETs (spec/43_control.md R92). -/
theorem Turn.keepsJob_ctrlWrite (v : Word) :
    (Turn.host (.writeWord ctrlOffset v)).keepsJob = !v.getLsbD 31 := by
  simp [Turn.keepsJob, Transfer.writeWord, Transfer.wellFormed, Transfer.sizeOk, Transfer.aligned, ctrlOffset]

/-- A host access that keeps the job is no SOFT_RESET. -/
theorem not_softResetDue_of_keepsJob {tr : Transfer} {rest : List Turn} (ht : s.turns = .host tr :: rest)
    (h : (Turn.host tr).keepsJob = true) : ¬ s.softResetDue := by
  rintro ⟨v, hw, h31⟩
  obtain rfl : tr = .writeWord ctrlOffset v := (hostDue_excludes (by rw [ht]; rfl)).2.2 ctrlOffset v hw
  rw [Turn.keepsJob_ctrlWrite, h31] at h
  cases h

/-- A due host turn that keeps the job is taken, a refused access too (log entry 5), and the job is still in flight. -/
theorem step_of_keepsJob {turn : Turn} {rest : List Turn} (hb : s.busy = true) (ht : s.turns = turn :: rest)
    (hk : turn.keepsJob = true) : ∃ t, step s = .next t ∧ s.JobKept t ∧ t.turns = rest := by
  obtain ⟨tr, rfl⟩ := Turn.eq_host_of_keepsJob hk
  obtain ⟨t, h⟩ := hostAccess_answers tr (s.withTurns rest)
  rw [← step_host ht] at h
  obtain ⟨he, hr, -⟩ := hostDue_excludes (s := s) (t := tr) (by rw [ht]; rfl)
  exact ⟨t, h, step_jobKept hb he hr (not_softResetDue_of_keepsJob ht hk) h, by rw [step_turns h, ht]; rfl⟩

/-- A job is kept by every run of such turns. -/
theorem runSteps_of_keepsJob {ts rest : List Turn} (hb : s.busy = true) (ht : s.turns = ts ++ rest)
    (hk : ∀ turn ∈ ts, turn.keepsJob = true) : ∃ t, runSteps ts.length s = .next t ∧ s.JobKept t ∧ t.turns = rest := by
  induction ts generalizing s with
  | nil => exact ⟨s, rfl, ⟨hb, rfl, rfl, fun _ => rfl⟩, ht⟩
  | cons turn ts ih =>
    obtain ⟨hturn, hts⟩ := List.forall_mem_cons.1 hk
    obtain ⟨t, h, hst, htt⟩ := step_of_keepsJob hb ht hturn
    obtain ⟨u, hrun, htu, hu⟩ := ih hst.busy htt hts
    exact ⟨u, (runSteps_succ _ h).trans hrun, hst.trans htu, hu⟩

/-- The step of a due command while BUSY = 0 (spec/40_command.md R64). -/
theorem step_of_command {i : Instr} {op : BitVec 4} {rest : List Turn} (hb : s.busy = false)
    (hop : commandOp i = some op) (ht : s.turns = .host i.transfer :: rest) :
    step s = .next (({ s with turns := rest, response := some .written } : State).accepted op) := by
  rw [stepRunsDecodedInstruction s i.offset (encode i) rest i ht (decode_encode i)]
  exact exec_command_of_idle hb hop

/-- Settles O29: the accepted state has the operands of `s`, and the run of host turns keeps its job. -/
theorem jobRunsOnOperandsAtAcceptance : Obligations.JobRunsOnOperandsAtAcceptance := by
  unfold Obligations.JobRunsOnOperandsAtAcceptance
  intro s i op ts rest hb hop ht hk
  obtain ⟨t, hrun, hjob, htt⟩ := runSteps_of_keepsJob
    (s := ({ s with turns := ts ++ rest, response := some .written } : State).accepted op) rfl rfl hk
  exact ⟨t, (runSteps_succ _ (step_of_command hb hop ht)).trans hrun, hjob.busy, htt, hjob.jobOp, hjob.sameOperands,
    hjob.jobResult_eq⟩

/-! ### Every job ends (R70) -/

/-- With a job in flight some transition exists, whatever is due: the engine's, if nothing else (log entry 3). -/
theorem State.canMove_of_busy (hb : s.busy = true) : s.canMove = true := by
  unfold State.canMove
  split
  · exact hb
  · rfl
  · exact hb
  · rfl

/-- In a good state with a job in flight every step answers a next state. -/
theorem State.Inv.step_answers_of_busy (h : s.Inv) (hb : s.busy = true) : ∃ t, step s = .next t :=
  (stepAnswersExactlyWhereEnabled s h).1 (State.canMove_of_busy hb)

/-- Settles O30, by induction on what is due: with nothing due the engine completes, and every other step leaves one turn
less, unless it already ends the job. -/
theorem everyJobEnds : Obligations.EveryJobEnds := by
  unfold Obligations.EveryJobEnds
  intro s hs hb
  induction hts : s.turns generalizing s with
  | nil =>
    obtain ⟨t, h⟩ := hs.step_answers_of_busy hb
    obtain ⟨-, res, -, rfl⟩ := step_of_engineDue (by rw [State.engineDue, hts]) h
    exact ⟨1, _, le_rfl, runSteps_succ 0 h, finish_busy _ res⟩
  | cons turn rest ih =>
    obtain ⟨t, h⟩ := hs.step_answers_of_busy hb
    cases htb : t.busy
    case false => exact ⟨1, t, by simp, runSteps_succ 0 h, htb⟩
    case true =>
      obtain ⟨k, u, hk, hrun, hu⟩ := ih t (step_inv hs h) htb (by rw [step_turns h, hts]; rfl)
      exact ⟨k + 1, u, Nat.succ_le_succ hk, (runSteps_succ k h).trans hrun, hu⟩

end Sys2Proof.Machine
end

section
/-! GCD and MODINV jobs: what their completion writes, and the errors of MODINV (spec/41_keyderiv.md R74 to R79). -/

namespace Sys2Proof.Machine

/-! ### The completion of an accepted command (R69) -/

section
variable {s : State} {op : BitVec 4}

theorem engineStep_accepted_of_ok {v : Nat} (h : (s.accepted op).jobResult = some (.ok v)) :
    engineStep (s.accepted op) = .next ((s.accepted op).succeeded v) :=
  engineStep_of_jobResult rfl h

theorem engineStep_accepted_of_err {e : ErrorCode} (h : (s.accepted op).jobResult = some (.err e)) :
    engineStep (s.accepted op) = .next ((s.accepted op).failed e.code) :=
  engineStep_of_jobResult rfl h

/-- After a successful job R reads its result, whole (spec/10_state.md R20). -/
theorem succeeded_x_R_of_jobResult {v : Nat} (h : s.jobResult = some (.ok v)) : (s.succeeded v).x .R = v :=
  State.complete_x_R_of_jobResult h

end

/-! ### GCD (R74, R75) -/

/-- A GCD job has a result whatever N holds. -/
theorem accepted_gcd_jobResult (s : State) : (s.accepted opGcd).jobResult = some (.ok (Nat.gcd (s.x .A) (s.x .B))) :=
  congrArg some (computeGcd_eq _ _)

theorem engineStep_accepted_gcd (s : State) :
    engineStep (s.accepted opGcd) = .next ((s.accepted opGcd).succeeded (Nat.gcd (s.x .A) (s.x .B))) :=
  engineStep_accepted_of_ok (accepted_gcd_jobResult s)

/-- The R that a completed GCD job leaves. -/
theorem x_R_of_engineStep_accepted_gcd {s t : State} (h : engineStep (s.accepted opGcd) = .next t) :
    t.x .R = Nat.gcd (s.x .A) (s.x .B) := by
  cases (engineStep_accepted_gcd s).symm.trans h
  exact succeeded_x_R_of_jobResult (accepted_gcd_jobResult s)

/-- Settles O20: the Euclidean loop answers the greatest common divisor, and R holds it whole. -/
theorem gcdWritesGreatestCommonDivisor : Obligations.GcdWritesGreatestCommonDivisor := by
  unfold Obligations.GcdWritesGreatestCommonDivisor
  exact ⟨decode_encode .gcd, fun s hb => ⟨exec_command_of_idle hb rfl, engineStep_accepted_gcd s,
    succeeded_x_R_of_jobResult (accepted_gcd_jobResult s)⟩⟩

/-- Settles O21: the laws are those of `Nat.gcd`, which R holds after the job. -/
theorem gcdResultLaws : Obligations.GcdResultLaws := by
  unfold Obligations.GcdResultLaws
  intro s t _ h
  rw [x_R_of_engineStep_accepted_gcd h]
  refine ⟨Nat.gcd_dvd_left _ _, Nat.gcd_dvd_right _ _, fun _ => Nat.dvd_gcd, Nat.gcd_eq_zero_iff, ?_⟩
  intro s' t' hA hB h'
  rw [x_R_of_engineStep_accepted_gcd h', hA, hB, Nat.gcd_comm]

/-! ### MODINV (R77 to R79) -/

section
variable {a n : Nat}

theorem computeModinv_of_lt_two (hn : n < 2) : computeModinv a n = .err .modulusInvalid :=
  if_pos hn

theorem computeModinv_of_ge (hn : 2 ≤ n) (ha : n ≤ a) : computeModinv a n = .err .range := by
  rw [computeModinv, if_neg (by omega), if_pos ha]

/-- The loop ends with the greatest common divisor in `r0`, and only 1 passes the test. -/
theorem computeModinv_of_not_coprime (hn : 2 ≤ n) (ha : a < n) (hg : Nat.gcd a n ≠ 1) :
    computeModinv a n = .err .notCoprime := by
  have hr := (euclidLoop_spec a n (n + 1) _ (Nat.lt_succ_self n) (EuclidState.start_good a n)).1
  rw [computeModinv, if_neg (by omega), if_neg (by omega)]
  exact if_pos (hr ▸ hg)

/-- A unit has at most one inverse in `[0, n)`. -/
theorem inverse_unique {d d' : Nat} (hg : Nat.gcd a n = 1) (hd : d < n) (hd' : d' < n)
    (h : a * d % n = 1) (h' : a * d' % n = 1) : d' = d :=
  (Nat.ModEq.cancel_left_of_coprime (Nat.gcd_comm a n ▸ hg) (h'.trans h.symm)).eq_of_lt_of_lt hd' hd

end

/-- The completion of a MODINV job whose result is an error. -/
theorem engineStep_accepted_modinv_of_err {s : State} {e : ErrorCode}
    (h : computeModinv (s.x .A) (s.x .N) = .err e) :
    engineStep (s.accepted opModinv) = .next ((s.accepted opModinv).failed e.code) :=
  engineStep_accepted_of_err (congrArg some h)

/-- Settles O22: the Bézout coefficient of A, brought into `[0, N)`, is an inverse, and a unit has only one there. -/
theorem modinvWritesUniqueInverse : Obligations.ModinvWritesUniqueInverse := by
  unfold Obligations.ModinvWritesUniqueInverse
  intro s hb hn ha hg
  obtain ⟨d, hok, hlt, hinv⟩ := computeModinv_of_coprime _ _ hn ha hg
  have hr : (s.accepted opModinv).jobResult = some (.ok d) := congrArg some hok
  exact ⟨exec_command_of_idle hb rfl, d, engineStep_accepted_of_ok hr, succeeded_x_R_of_jobResult hr, hlt, hinv,
    fun _ hlt' hinv' => inverse_unique hg hlt hlt' hinv hinv'⟩

/-- Settles O23: each test of `computeModinv` is reached only when the ones before it passed. -/
theorem modinvRejectsBadOperands : Obligations.ModinvRejectsBadOperands := by
  unfold Obligations.ModinvRejectsBadOperands
  exact fun s hb => ⟨exec_command_of_idle hb rfl,
    fun hn => engineStep_accepted_modinv_of_err (computeModinv_of_lt_two hn),
    fun hn ha => engineStep_accepted_modinv_of_err (computeModinv_of_ge hn ha),
    fun hn ha hg => engineStep_accepted_modinv_of_err (computeModinv_of_not_coprime hn ha hg)⟩

end Sys2Proof.Machine
end

section
/-! MODEXP and MODMUL jobs: what their completion writes, their errors, and the chain of MODMULs that gives one MODEXP
(spec/42_modular.md R81 to R84, R88, R89). -/

namespace Sys2Proof.Machine

/-! ### `compute` on legal and on rejected operands -/

section
variable {opw a b n : Nat}

theorem computeModexp_of_lt_two (hn : n < 2) : computeModexp opw a b n = .err .modulusInvalid :=
  if_pos hn

theorem computeModexp_of_ge (hn : 2 ≤ n) (ha : n ≤ a) : computeModexp opw a b n = .err .range := by
  rw [computeModexp, if_neg (by omega), if_pos ha]

/-- The loop starts from 1 and reads every bit of an exponent that fits in the register: it gives the power (R83). -/
theorem modexpLoop_eq_pow_mod (hn : 2 ≤ n) (hb : b < 2 ^ opw) : modexpLoop opw a b n 1 = a ^ b % n := by
  have hpow : modexpLoop opw a b n 1 ≡ a ^ b [MOD n] := by
    simpa [Nat.mod_eq_of_lt hb] using modexpLoop_modEq opw a b n 1
  exact (Nat.mod_eq_of_lt (modexpLoop_lt _ _ _ _ _ hn)).symm.trans hpow

theorem computeModexp_of_legal (hn : 2 ≤ n) (ha : a < n) (hb : b < 2 ^ opw) :
    computeModexp opw a b n = .ok (a ^ b % n) := by
  rw [computeModexp, if_neg (by omega), if_neg (by omega), modexpLoop_eq_pow_mod hn hb]

theorem computeModmul_of_lt_two (hn : n < 2) : computeModmul a b n = .err .modulusInvalid :=
  if_pos hn

theorem computeModmul_of_ge (hn : 2 ≤ n) (h : n ≤ a ∨ n ≤ b) : computeModmul a b n = .err .range := by
  rw [computeModmul, if_neg (by omega), if_pos h]

theorem computeModmul_of_legal (hn : 2 ≤ n) (ha : a < n) (hb : b < n) : computeModmul a b n = .ok (a * b % n) := by
  rw [computeModmul, if_neg (by omega), if_neg (by omega)]

/-- Every job of the chain has legal operands, since each result is reduced; so the chain runs the loop of R83 (R89). -/
theorem modmulChain_eq_modexpLoop {r : Nat} (k : Nat) (hn : 2 ≤ n) (ha : a < n) (hr : r < n) :
    modmulChain k a b n r = some (modexpLoop k a b n r) := by
  induction k generalizing r with
  | zero => rfl
  | succ k ih =>
    have reduced (x : Nat) : x % n < n := Nat.mod_lt x (by omega)
    rw [modmulChain, computeModmul_of_legal hn hr hr, modexpLoop]
    dsimp only
    split
    · rw [computeModmul_of_legal hn (reduced _) ha]
      exact ih (reduced _)
    · exact ih (reduced _)

end

/-! ### MODEXP (R83, R84) -/

section
variable {s : State}

theorem accepted_modexp_jobResult (hn : 2 ≤ s.x .N) (ha : s.x .A < s.x .N) :
    (s.accepted opModexp).jobResult = some (.ok (s.x .A ^ s.x .B % s.x .N)) :=
  congrArg some (computeModexp_of_legal hn ha (s.x_lt .B))

theorem engineStep_accepted_modexp {v : Nat} (hn : 2 ≤ s.x .N) (ha : s.x .A < s.x .N)
    (hv : s.x .A ^ s.x .B % s.x .N = v) :
    engineStep (s.accepted opModexp) = .next ((s.accepted opModexp).succeeded v) :=
  engineStep_accepted_of_ok (hv ▸ accepted_modexp_jobResult hn ha)

/-- The completion of a MODEXP job whose result is an error. -/
theorem engineStep_accepted_modexp_of_err {e : ErrorCode}
    (h : computeModexp s.width.opw (s.x .A) (s.x .B) (s.x .N) = .err e) :
    engineStep (s.accepted opModexp) = .next ((s.accepted opModexp).failed e.code) :=
  engineStep_accepted_of_err (congrArg some h)

/-- R of the completed state tells the result, when the result fits in it. -/
theorem eq_of_succeeded_eq {v w : Nat} (hv : v < 2 ^ s.width.opw) (hw : w < 2 ^ s.width.opw)
    (h : s.succeeded v = s.succeeded w) : v = w :=
  calc
    v = (s.succeeded v).x .R := ((s.complete_x_R v).trans (Nat.mod_eq_of_lt hv)).symm
    _ = (s.succeeded w).x .R := congrArg (·.x .R) h
    _ = w := (s.complete_x_R w).trans (Nat.mod_eq_of_lt hw)

end

/-- Settles O15: the loop of R83 gives the power, and R holds it whole. -/
theorem modexpWritesPower : Obligations.ModexpWritesPower := by
  unfold Obligations.ModexpWritesPower
  exact fun s hb hn ha => ⟨exec_command_of_idle hb rfl, engineStep_accepted_modexp hn ha rfl,
    succeeded_x_R_of_jobResult (accepted_modexp_jobResult hn ha)⟩

/-- Settles O16: the test of the modulus comes before the test of the base. -/
theorem modexpRejectsBadOperands : Obligations.ModexpRejectsBadOperands := by
  unfold Obligations.ModexpRejectsBadOperands
  exact fun s hb => ⟨exec_command_of_idle hb rfl,
    fun hn => engineStep_accepted_modexp_of_err (computeModexp_of_lt_two hn),
    fun hn ha => engineStep_accepted_modexp_of_err (computeModexp_of_ge hn ha)⟩

/-- Settles O17: the power with exponent 0 is 1, which every legal modulus leaves as it is. -/
theorem modexpZeroExponentGivesOne : Obligations.ModexpZeroExponentGivesOne := by
  unfold Obligations.ModexpZeroExponentGivesOne
  intro s hb hn ha hzero
  have hone : s.x .A ^ s.x .B % s.x .N = 1 := by rw [hzero, pow_zero, Nat.mod_eq_of_lt hn]
  exact ⟨exec_command_of_idle hb rfl, engineStep_accepted_modexp hn ha hone⟩

/-! ### MODMUL (R88, R89) -/

section
variable {s : State}

theorem accepted_modmul_jobResult (hn : 2 ≤ s.x .N) (ha : s.x .A < s.x .N) (hb : s.x .B < s.x .N) :
    (s.accepted opModmul).jobResult = some (.ok (s.x .A * s.x .B % s.x .N)) :=
  congrArg some (computeModmul_of_legal hn ha hb)

/-- The completion of a MODMUL job whose result is an error. -/
theorem engineStep_accepted_modmul_of_err {e : ErrorCode} (h : computeModmul (s.x .A) (s.x .B) (s.x .N) = .err e) :
    engineStep (s.accepted opModmul) = .next ((s.accepted opModmul).failed e.code) :=
  engineStep_accepted_of_err (congrArg some h)

end

/-- Settles O18: the exact product is reduced once, and R holds it whole. -/
theorem modmulWritesProduct : Obligations.ModmulWritesProduct := by
  unfold Obligations.ModmulWritesProduct
  intro s hidle hn ha hb
  have hr := accepted_modmul_jobResult hn ha hb
  exact ⟨exec_command_of_idle hidle rfl, engineStep_accepted_of_ok hr, succeeded_x_R_of_jobResult hr⟩

/-- Settles O19: the test of the modulus comes before the test of the factors. -/
theorem modmulRejectsBadOperands : Obligations.ModmulRejectsBadOperands := by
  unfold Obligations.ModmulRejectsBadOperands
  exact fun s hb => ⟨exec_command_of_idle hb rfl,
    fun hn => engineStep_accepted_modmul_of_err (computeModmul_of_lt_two hn),
    fun hn h => engineStep_accepted_modmul_of_err (computeModmul_of_ge hn h)⟩

/-- Settles O24: the chain ends with the value of the loop, and a value below `N` is what R shows after the job. -/
theorem modexpEqualsModmulChain : Obligations.ModexpEqualsModmulChain := by
  unfold Obligations.ModexpEqualsModmulChain
  intro s v _ hn ha
  have hstep := engineStep_accepted_modexp hn ha rfl
  have hlt : s.x .A ^ s.x .B % s.x .N < s.x .N := Nat.mod_lt _ (by omega)
  rw [modmulChain_eq_modexpLoop _ hn ha hn, modexpLoop_eq_pow_mod hn (s.x_lt .B), Option.some_inj]
  constructor
  · rintro rfl
    exact ⟨hstep, hlt⟩
  · rintro ⟨hv, hvlt⟩
    exact eq_of_succeeded_eq (s := s.accepted opModexp) (hlt.trans (s.x_lt .N)) (hvlt.trans (s.x_lt .N))
      (Host.Outcome.next.inj (hstep.symm.trans hv))

end Sys2Proof.Machine
end

section
/-! The RSA round trip: a key that MODINV gave undoes MODEXP with MODEXP (spec/42_modular.md R86, spec/41_keyderiv.md
R80). -/

namespace Sys2Proof.Machine

/-! ### Exponents that leave every residue unchanged -/

/-- Fermat's little theorem, for every residue: 0 needs only that the exponent is positive. -/
theorem pow_modEq_self_of_prime {p k : Nat} (hp : p.Prime) (hk : 0 < k) (h : k ≡ 1 [MOD p - 1]) (x : Nat) :
    x ^ k ≡ x [MOD p] := by
  have hdvd : p - 1 ∣ k - 1 := (Nat.modEq_iff_dvd' hk).1 h.symm
  have hint := Int.ModEq.pow_eq_pow hp hdvd hk Nat.one_pos x
  rw [pow_one] at hint
  exact Int.natCast_modEq_iff.1 (by exact_mod_cast hint)

/-- By the Chinese remainder theorem the same holds modulo a product of two distinct primes (R86). -/
theorem pow_modEq_self_of_primes {p q k : Nat} (hp : p.Prime) (hq : q.Prime) (hpq : p ≠ q)
    (h : k % ((p - 1) * (q - 1)) = 1) (x : Nat) : x ^ k ≡ x [MOD p * q] := by
  have hk : 0 < k := Nat.pos_of_ne_zero (by rintro rfl; simp at h)
  have hone : k ≡ 1 [MOD (p - 1) * (q - 1)] := by simpa only [h] using (Nat.mod_modEq k ((p - 1) * (q - 1))).symm
  exact (Nat.modEq_and_modEq_iff_modEq_mul ((Nat.coprime_primes hp hq).2 hpq)).1
    ⟨pow_modEq_self_of_prime hp hk (hone.of_mul_right _) x, pow_modEq_self_of_prime hq hk (hone.of_mul_left _) x⟩

/-- Raising to `e` and then to an inverse `d` of `e` gives the symbol back (R86). -/
theorem pow_mod_pow_mod_eq_self {p q e d v : Nat} (hp : p.Prime) (hq : q.Prime) (hpq : p ≠ q)
    (h : e * d % ((p - 1) * (q - 1)) = 1) (hv : v < p * q) : (v ^ e % (p * q)) ^ d % (p * q) = v :=
  calc
    (v ^ e % (p * q)) ^ d % (p * q) = v ^ (e * d) % (p * q) := by rw [← Nat.pow_mod, pow_mul]
    _ = v % (p * q) := pow_modEq_self_of_primes hp hq hpq h v
    _ = v := Nat.mod_eq_of_lt hv

/-! ### The key job -/

/-- MODINV succeeds only with an inverse, whatever its operands: the operands without one are errors (R77 to R79). -/
theorem mul_mod_eq_one_of_computeModinv {a n d : Nat} (h : computeModinv a n = .ok d) : a * d % n = 1 := by
  rcases Nat.lt_or_ge n 2 with hn | hn
  · cases (computeModinv_of_lt_two hn).symm.trans h
  rcases Nat.lt_or_ge a n with ha | ha
  case inr => cases (computeModinv_of_ge hn ha).symm.trans h
  by_cases hg : Nat.gcd a n = 1
  · obtain ⟨d', hok, -, hinv⟩ := computeModinv_of_coprime a n hn ha hg
    cases hok.symm.trans h
    exact hinv
  · cases (computeModinv_of_not_coprime hn ha hg).symm.trans h

/-- An accepted command has DONE = 0, and an error leaves it so: DONE = 1 after the completion means a result, which R
then holds (spec/40_command.md R69). -/
theorem jobResult_of_done {s t : State} {op : BitVec 4} (h : engineStep (s.accepted op) = .next t)
    (hdone : t.done = true) : (s.accepted op).jobResult = some (.ok (t.x .R)) := by
  obtain ⟨-, res, hr, rfl⟩ := engineStep_cases h
  cases res with
  | ok v => exact hr.trans (congrArg (some ∘ JobResult.ok) (succeeded_x_R_of_jobResult hr).symm)
  | err e => cases hdone

/-- What a MODINV job left in R is an inverse of its operand A: the key of R80. -/
theorem mul_mod_eq_one_of_modinv_done {s t : State} (h : engineStep (s.accepted opModinv) = .next t)
    (hdone : t.done = true) : s.x .A * t.x .R % s.x .N = 1 :=
  mul_mod_eq_one_of_computeModinv (Option.some.inj (jobResult_of_done h hdone))

/-! ### The round trip -/

/-- Settles O25: both jobs are legal, and `d` is an inverse of `e` because the key job ended with DONE. -/
theorem rsaRoundTrip : Obligations.RsaRoundTrip := by
  unfold Obligations.RsaRoundTrip
  intro p q e d v key keyDone s s' hp hq hpq he hm hkey hdone hd hv hA hB hN hB' hN'
  have hinv : e * d % ((p - 1) * (q - 1)) = 1 := by
    simpa only [he, hd, hm] using mul_mod_eq_one_of_modinv_done hkey hdone
  have hn : 2 ≤ p * q := hp.two_le.trans (Nat.le_mul_of_pos_right p hq.pos)
  have hc : v ^ e % (p * q) < p * q := Nat.mod_lt _ (by omega)
  refine ⟨_, hc, engineStep_accepted_modexp (hN ▸ hn) (by rwa [hA, hN]) (by rw [hA, hB, hN]), fun hA' => ?_⟩
  exact engineStep_accepted_modexp (hN' ▸ hn) (by rwa [hA', hN'])
    (by rw [hA', hB', hN', pow_mod_pow_mod_eq_self hp hq hpq hinv hv])

end Sys2Proof.Machine
end

section
/-! The control actions: what a CTRL write and a STATUS write do (spec/43_control.md R90 to R93). -/

namespace Sys2Proof.Machine

variable {s : State} {v : Word}

/-! ### SETIE and ZEROIZE -/

theorem exec_setie (rsvd : BitVec 28) (ieErr ieDone : Bool) (s : State) :
    exec (.setie rsvd ieErr ieDone) s = .next (s.setEnables ieErr ieDone) := rfl

/-- Settles O32: SETIE is the update of the enables, whatever BUSY is. -/
theorem setieSetsEnables : Obligations.SetieSetsEnables := by
  unfold Obligations.SetieSetsEnables
  exact fun s _ ieErr ieDone => exec_setie _ ieErr ieDone s

/-- Settles O33: the word decodes by its top bits, and ZEROIZE looks at BUSY alone. -/
theorem zeroizeClearsOperands : Obligations.ZeroizeClearsOperands := by
  unfold Obligations.ZeroizeClearsOperands
  refine ⟨fun v h31 h30 => ?_, fun s rsvd ieErr ieDone => ⟨exec_zeroize_of_idle rsvd ieErr ieDone,
    exec_zeroize_of_busy rsvd ieErr ieDone⟩⟩
  rw [decode_ctrlOffset, decodeCtrl_zeroize h31 h30]

/-! ### A write to CTRL -/

theorem memWrite_ctrl (v : Word) (s : State) : memWrite ctrlOffset v s = exec (decodeCtrl v) s := by
  rw [memWrite, windowTarget_ctrl]

theorem memWrite_setie (s : State) (h31 : v.getLsbD 31 = false) (h30 : v.getLsbD 30 = false) :
    memWrite ctrlOffset v s = .next (s.setEnables (v.getLsbD 1) (v.getLsbD 0)) := by
  rw [memWrite_ctrl, decodeCtrl_setie h31 h30, exec_setie]

theorem memWrite_zeroize_of_idle (h31 : v.getLsbD 31 = false) (h30 : v.getLsbD 30 = true) (hb : s.busy = false) :
    memWrite ctrlOffset v s = .next (s.setEnables (v.getLsbD 1) (v.getLsbD 0)).zeroizeOperands := by
  rw [memWrite_ctrl, decodeCtrl_zeroize h31 h30, exec_zeroize_of_idle _ _ _ hb]

/-- Settles O31, by the action in bits 31:30, and BUSY for ZEROIZE. -/
theorem ctrlWriteEffect : Obligations.CtrlWriteEffect := by
  unfold Obligations.CtrlWriteEffect
  exact fun s v => ⟨memWrite_softReset s, memWrite_setie s, memWrite_zeroize_of_busy, memWrite_zeroize_of_idle⟩

/-! ### SOFT_RESET -/

/-- Settles O34: the next state is the reset state, and with no outcome in it there is no interrupt. -/
theorem softResetReturnsToResetState : Obligations.SoftResetReturnsToResetState := by
  unfold Obligations.SoftResetReturnsToResetState
  refine ⟨fun v h31 => ?_, fun s _ => ⟨s.toReset, rfl, s.toReset_x, ?_⟩⟩
  · rw [decode_ctrlOffset, decodeCtrl_softReset h31]
  · exact ⟨rfl, rfl, rfl, rfl, rfl, rfl, rfl, rfl, irq_of_no_outcome rfl rfl, rfl, rfl⟩

/-! ### A write to STATUS -/

/-- A strobe that is 1 clears its flag, and one that is 0 keeps it (spec/43_control.md R93). -/
theorem clearStrobed_eq_ite (s : State) (overrun err done : Bool) :
    s.clearStrobed overrun err done =
      { s with
        done := if done then false else s.done
        err := if err then false else s.err
        errcode := if err then 0 else s.errcode
        overrun := if overrun then false else s.overrun } := by
  simp only [State.clearStrobed, Bool.if_false_left, Bool.decide_eq_true, Bool.and_comm]

/-- Settles O37: a STATUS write and CLRST are the same strobes, each as the choice it makes for its flag. -/
theorem statusWriteClearsStrobedFlags : Obligations.StatusWriteClearsStrobedFlags := by
  unfold Obligations.StatusWriteClearsStrobedFlags
  refine ⟨fun s v => ?_, fun s _ overrun err done _ => ?_⟩
  · rw [memWrite_status, clearStrobed_eq_ite]
  · exact congrArg Host.Outcome.next (clearStrobed_eq_ite s overrun err done)

end Sys2Proof.Machine
end

section
/-! Reset: the hardware reset is the step that SOFT_RESET is, and the reset state takes commands
(spec/70_reset_and_hazards.md R109, R110). -/

namespace Sys2Proof.Machine

/-- SOFT_RESET looks at neither BUSY nor the ignored bits (spec/43_control.md R90, R92). -/
theorem exec_softReset (ignored : BitVec 31) (s : State) : exec (.softReset ignored) s = .next s.toReset := rfl

/-- Settles O35: with the reset's turn taken, both go to `toReset` of the same state. -/
theorem hardwareResetIsOneStep : Obligations.HardwareResetIsOneStep := by
  unfold Obligations.HardwareResetIsOneStep
  intro s rest hdue
  have hstep : step s = .next (s.withTurns rest).toReset := step_reset hdue
  exact ⟨hstep, fun ignored => (exec_softReset ignored (s.withTurns rest)).trans hstep.symm⟩

/-- Settles O36: no outcome is pending, so irq = 0, and BUSY = 0 is all that a command needs. -/
theorem resetStateIsIdle : Obligations.ResetStateIsIdle := by
  unfold Obligations.ResetStateIsIdle
  exact fun w => ⟨rfl, rfl, rfl, irq_of_no_outcome rfl rfl, rfl, rfl, fun _ _ hop => exec_command_of_idle rfl hop⟩

end Sys2Proof.Machine
end
